-- ==== Sys2Proof/Word.lean ====
section
/-! DEFINITION. The word types of the block: Word16 (R7), a character byte (R25), a register index (R15). -/

namespace Sys2Proof

/-- `Word16` of R7: register values, memory words, addresses and instruction words. -/
abbrev Word := BitVec 16

/-- A byte of the console streams (R25) or of an image (R113). -/
abbrev Byte := BitVec 8

/-- The 3-bit field that names one of R0-R7 (R15). -/
abbrev RegIdx := BitVec 3

end Sys2Proof
end

