-- ==== Sys2Proof/Config.lean ====
section
/-! DEFINITION. The parameters of R5: those the spec gives a value, and the OPEN ones, which have no body. -/

namespace Sys2Proof

/-- What the loader does with an image longer than the room above its origin (R115, D23). -/
inductive LoaderPolicy where
  | reject
  | truncate
  deriving DecidableEq, Repr, Inhabited

namespace Config

/-- PC_RESET of R5 and R16. -/
def pcReset : Word := 0x3000

/-- KBSR_ADDR of R5 and R33 (D5). UNVERIFIED: the spec's own decision, from the standard LC-3 map; log entry 4, unsafe. -/
def kbsrAddr : Word := 0xFE00

/-- KBDR_ADDR of R5 and R33 (D5). UNVERIFIED: the spec's own decision, from the standard LC-3 map; log entry 4, unsafe. -/
def kbdrAddr : Word := 0xFE02

/-- COND_RESET of R5 at its default, no flag set (R17, D8, C1). UNVERIFIED: the spec's own decision; log entry 3, unsafe. -/
def condReset : BitVec 3 := 0b000

/-- TRAP_STRING_READ_POLLS of R5 at its default (R38, D11, C2). UNVERIFIED: the spec's own decision; log entry 13, unsafe. -/
def trapStringReadPolls : Bool := false

/-- HALT_MSG of R5, OPEN (D15): no value of it can be proved. Log entry 16. -/
opaque haltMsg : List Byte

/-- IN_PROMPT of R5, OPEN (D15): no value of it can be proved. Log entry 16. -/
opaque inPrompt : List Byte

/-- LOADER_OVERFLOW_POLICY of R5, OPEN (D23). Log entry 19. -/
opaque loaderOverflowPolicy : LoaderPolicy

/-- One less than FATAL_EXIT_CODE; OPEN, so every nonzero code is possible. Log entry 18. -/
opaque fatalExitPred : Nat

/-- One less than the exit code of a load failure; OPEN ("nonzero on load failure", R115). Log entry 18. -/
opaque loadFailurePred : Nat

/-- Picks INTERRUPT_EXIT_CODE among the nonzero codes other than the load-failure code; OPEN (D21). Log entry 18. -/
opaque interruptPick : Nat

/-- FATAL_EXIT_CODE: some nonzero process exit code (R5, R98). -/
def fatalExitCode : Nat := fatalExitPred + 1

/-- The exit code of a load failure: some nonzero code (R115). -/
def loadFailureExitCode : Nat := loadFailurePred + 1

/-- INTERRUPT_EXIT_CODE: some nonzero code distinct from the load-failure code (R5, R110). -/
def interruptExitCode : Nat :=
  if interruptPick < loadFailurePred then interruptPick + 1 else interruptPick + 2

end Config

end Sys2Proof
end

