-- ==== Sys2Proof/Machine/State.lean ====
section
/-! DEFINITION. Everything the spec gives the machine, as plain data (R14, R23, R25, R94, R110), and the state after
reset (R111, R112). -/

namespace Sys2Proof.Machine

/-- The two fatal errors of R97. -/
inductive FatalCause where
  /-- RTI or RES was executed. -/
  | unimplementedOpcode
  /-- A TRAP with a vector outside 0x20-0x25 was executed. -/
  | unimplementedTrapVector
  deriving DecidableEq, Repr

/-- The run state of R23. -/
inductive RunState where
  | running
  | halted
  | fatal (cause : FatalCause) (word : Word)
  | aborted
  deriving DecidableEq, Repr

/-- Whether the block is held inside a console read (R94), and in which routine. -/
inductive Hold where
  /-- Not held: the next step fetches. -/
  | free
  /-- Held inside TRAP GETC. -/
  | getc
  /-- Held inside TRAP IN, its prompt written. -/
  | inp
  deriving DecidableEq, Repr

/-- The memory M of R28 as cells: word `a` has its high byte at key `2a` and its low byte at key `2a + 1` (log entry 7);
an unlisted key reads as 0, the reset value of R28. -/
abbrev Mem := List Host.Cell

structure State where
  /-- R0-R7 (R15). -/
  regs : Vector Word 8
  /-- The program counter (R16). -/
  pc : Word
  /-- COND: bit 2 N, bit 1 Z, bit 0 P (R17). -/
  cond : BitVec 3
  /-- Memory, KBSR and KBDR among its words (R28, R35, R36). -/
  mem : Mem
  /-- The run state (R23). -/
  run : RunState
  /-- The hold inside GETC or IN (R94). -/
  hold : Hold
  /-- Every byte passed to ConsoleWrite, in order (R25, R86). -/
  output : List Byte
  /-- The host's coming answers to ConsolePoll and ConsoleRead, the next one first: `none` for no byte yet, `some b`
  for the next byte of the input stream (R25, R86, D16). Past its end the host answers with no byte. Log entry 8. -/
  console : List (Option Byte)
  /-- The step boundaries left before the host aborts (R110, D21); `none` where it never does. Log entry 11. -/
  abortIn : Option Nat
  deriving DecidableEq, Repr

/-- Why a step stops with a fault: nothing does. The two fatal errors of R97 are run states (R98), entered by a next
state; there is no address, alignment, arithmetic or privilege fault (R97). Log entry 12. -/
inductive Fault where
  deriving DecidableEq, Repr

/-- Why a step is refused. -/
inductive Refusal where
  /-- An instruction without a meaning, raised by `exec`'s arm alone; safe. No arm raises it: all are modelled. -/
  | notModelled (mnemonic : String)
  deriving DecidableEq, Repr

/-- What an instruction or a step answers. -/
abbrev Result := Host.Outcome State Fault Refusal

/-- The state before the first fetch (R111, R112): COND at `cond` (R5 lets it be 0b000 or 0b010), memory as the host
loaded it, and the host's coming answers and abort. -/
def State.initial (cond : BitVec 3) (mem : Mem) (console : List (Option Byte)) (abortIn : Option Nat) : State where
  regs := Vector.replicate 8 0
  pc := Config.pcReset
  cond := cond
  mem := mem
  run := .running
  hold := .free
  output := []
  console := console
  abortIn := abortIn

/-- The machine right after reset, no image loaded (R111, R112). The host has answered nothing and does not abort:
DESIGN CHOICE, the spec calls both a draw of the host; log entry 9, unsafe. -/
def State.reset : State := State.initial Config.condReset [] [] none

end Sys2Proof.Machine
end

