-- ==== Sys2Proof/Machine/Flags.lean ====
section
/-! DEFINITION. The condition_flag_updater (R17, R20) and the branch condition (R70). -/

namespace Sys2Proof.Machine

/-- COND with only NEGATIVE set (R17, D4, UNVERIFIED: the spec's own decision; log entry 3, safe: no program reads it, R26). -/
def flagN : BitVec 3 := 0b100
/-- COND with only ZERO set (R17). -/
def flagZ : BitVec 3 := 0b010
/-- COND with only POSITIVE set (R17). -/
def flagP : BitVec 3 := 0b001

/-- The flag that describes a value (R20). -/
def condOf (v : Word) : BitVec 3 :=
  if v = 0x0000 then flagZ else if v.getLsbD 15 then flagN else flagP

/-- `setcc(v)` of R20. -/
def State.setcc (s : State) (v : Word) : State := { s with cond := condOf v }

/-- A BR with this mask is taken under this COND (R70). -/
def branchTaken (nzp cond : BitVec 3) : Bool := nzp &&& cond != 0b000

end Sys2Proof.Machine
end

