-- ==== Sys2Proof/Syntax.lean ====
section
/-! DEFINITION. The instructions: one constructor per row of spec/opcode_table.json, with the fields that R52 names.
Unused bits (R54) are no fields, but for RTI, RES and the generic TRAP, whose fatal end records the whole word (R98). -/

namespace Sys2Proof

inductive Instr where
  /-- BR, R71: the mask n z p (bits 11:9) and PCoffset9. -/
  | br (nzp : BitVec 3) (off9 : BitVec 9)
  /-- ADD, register form, R65. -/
  | addReg (dr sr1 sr2 : RegIdx)
  /-- ADD, immediate form, R66. -/
  | addImm (dr sr1 : RegIdx) (imm5 : BitVec 5)
  /-- LD, R77. -/
  | ld (dr : RegIdx) (off9 : BitVec 9)
  /-- ST, R81. -/
  | st (sr : RegIdx) (off9 : BitVec 9)
  /-- JSRR, R74. -/
  | jsrr (baser : RegIdx)
  /-- JSR, R73. -/
  | jsr (off11 : BitVec 11)
  /-- AND, register form, R67. -/
  | andReg (dr sr1 sr2 : RegIdx)
  /-- AND, immediate form, R68. -/
  | andImm (dr sr1 : RegIdx) (imm5 : BitVec 5)
  /-- LDR, R79. -/
  | ldr (dr baser : RegIdx) (off6 : BitVec 6)
  /-- STR, R83. -/
  | str (sr baser : RegIdx) (off6 : BitVec 6)
  /-- RTI, R95: `low` is word[11:0], recorded by the fatal error. -/
  | rti (low : BitVec 12)
  /-- NOT, R69. -/
  | not (dr sr : RegIdx)
  /-- LDI, R78. -/
  | ldi (dr : RegIdx) (off9 : BitVec 9)
  /-- STI, R82. -/
  | sti (sr : RegIdx) (off9 : BitVec 9)
  /-- JMP, R72 (RET is `jmp 7`). -/
  | jmp (baser : RegIdx)
  /-- RES, R96: `low` is word[11:0], recorded by the fatal error. -/
  | res (low : BitVec 12)
  /-- LEA, R80. -/
  | lea (dr : RegIdx) (off9 : BitVec 9)
  /-- TRAP, R84, the generic row (unknown vectors, R61): `high` is word[11:8], recorded by the fatal error. -/
  | trap (high : BitVec 4) (trapvect8 : BitVec 8)
  /-- TRAP GETC, vector 0x20, R87. -/
  | trapGetc
  /-- TRAP OUT, vector 0x21, R88. -/
  | trapOut
  /-- TRAP PUTS, vector 0x22, R89. -/
  | trapPuts
  /-- TRAP IN, vector 0x23, R90. -/
  | trapIn
  /-- TRAP PUTSP, vector 0x24, R91. -/
  | trapPutsp
  /-- TRAP HALT, vector 0x25, R92. -/
  | trapHalt
  deriving DecidableEq, Repr

end Sys2Proof
end

