-- ==== Sys2Proof/Decode.lean ====
section
/-! DEFINITION. The decoder (R48-R61), the encoder written from the same tables (R50, R52), and the byte order in
which a word's two bytes are held (log entry 7). -/

namespace Sys2Proof

/-- The field of `len` bits whose low bit is `lo`: shift right, then mask (R51). -/
def field (w : Word) (lo len : Nat) : BitVec len := (w >>> lo).setWidth len

/-- `sext_N` of R8. -/
def sext {n : Nat} (f : BitVec n) : Word := f.signExtend 16

/-- `zext_N` of R9. -/
def zext {n : Nat} (f : BitVec n) : Word := f.setWidth 16

/-! ### The decoder's signals (R60, D18) -/

def opcode (w : Word) : BitVec 4 := field w 12 4
/-- Also `sr` of ST, STI, STR and `nzp` of BR. -/
def dr (w : Word) : RegIdx := field w 9 3
/-- Also `baser` of LDR, STR, JMP, JSRR and `sr` of NOT. -/
def sr1 (w : Word) : RegIdx := field w 6 3
def sr2 (w : Word) : RegIdx := field w 0 3
def immSel (w : Word) : Bool := field w 5 1 == 1
def jsrLong (w : Word) : Bool := field w 11 1 == 1
def imm5x (w : Word) : Word := sext (field w 0 5)
def off6x (w : Word) : Word := sext (field w 0 6)
def off9x (w : Word) : Word := sext (field w 0 9)
def off11x (w : Word) : Word := sext (field w 0 11)
def trapvect8 (w : Word) : BitVec 8 := field w 0 8
def fatalOpcode (w : Word) : Bool := opcode w == 0x8 || opcode w == 0xD

/-! ### Decoding -/

/-- The row of a word with opcode 1111: the vector's own row where it has one, else the generic one (R61, R85). -/
def decodeTrap (w : Word) : Instr :=
  if trapvect8 w = 0x20 then .trapGetc
  else if trapvect8 w = 0x21 then .trapOut
  else if trapvect8 w = 0x22 then .trapPuts
  else if trapvect8 w = 0x23 then .trapIn
  else if trapvect8 w = 0x24 then .trapPutsp
  else if trapvect8 w = 0x25 then .trapHalt
  else .trap (field w 8 4) (trapvect8 w)

/-- The dispatch of R59: total, since no 16-bit word is undecodable (R61). -/
def decode (w : Word) : Instr :=
  match (opcode w).toNat with
  | 0x0 => .br (dr w) (field w 0 9)
  | 0x1 => if immSel w then .addImm (dr w) (sr1 w) (field w 0 5) else .addReg (dr w) (sr1 w) (sr2 w)
  | 0x2 => .ld (dr w) (field w 0 9)
  | 0x3 => .st (dr w) (field w 0 9)
  | 0x4 => if jsrLong w then .jsr (field w 0 11) else .jsrr (sr1 w)
  | 0x5 => if immSel w then .andImm (dr w) (sr1 w) (field w 0 5) else .andReg (dr w) (sr1 w) (sr2 w)
  | 0x6 => .ldr (dr w) (sr1 w) (field w 0 6)
  | 0x7 => .str (dr w) (sr1 w) (field w 0 6)
  | 0x8 => .rti (field w 0 12)
  | 0x9 => .not (dr w) (sr1 w)
  | 0xA => .ldi (dr w) (field w 0 9)
  | 0xB => .sti (dr w) (field w 0 9)
  | 0xC => .jmp (sr1 w)
  | 0xD => .res (field w 0 12)
  | 0xE => .lea (dr w) (field w 0 9)
  | _ => decodeTrap w

/-! ### A word as bytes -/

/-- Fields side by side, the first in the high-order bits (`a : b` of R6), as a word: their widths make up 16. -/
def pack {n : Nat} (fields : BitVec n) (width : n = 16 := by rfl) : Word := fields.cast width

/-- The byte of a word at the lower key: its high half (log entry 7, DESIGN CHOICE, safe: R40 gives memory no byte order). -/
def firstByte (w : Word) : Byte := field w 8 8

/-- The byte of a word at the higher key: its low half (log entry 7). -/
def secondByte (w : Word) : Byte := field w 0 8

/-- The word of two bytes, the one at the lower key first: `b0 : b1` of R6 and R113. -/
def wordOfBytes (b0 b1 : Byte) : Word := pack (b0 ++ b1)

/-- Why bytes are no instruction. -/
inductive DecodeError where
  /-- Fewer than the two bytes of a word (R48: there is no shorter instruction). Safe: the fetch always has a word. -/
  | truncated
  deriving DecidableEq, Repr

/-- Reads one instruction from bytes and gives the bytes that follow it; total, and rejecting by name. -/
def decodeBytes : List Byte → Except DecodeError (Instr × List Byte)
  | b0 :: b1 :: rest => .ok (decode (wordOfBytes b0 b1), rest)
  | _ => .error .truncated

/-- The instruction the decoder reads from the bits `w` of an opcode-table row of `nbits` bits; the bits above are 0. -/
def decodeTableWord (nbits w : Nat) : Option Instr :=
  if nbits ≤ 16 then
    let word := BitVec.ofNat 16 (w % 2 ^ nbits)
    match decodeBytes [firstByte word, secondByte word] with
    | .ok (i, _) => some i
    | .error _ => none
  else none

/-! ### Encoding -/

/-- The word of an instruction by the formats of R52 and the opcode map of R50. The unused bits are those a standard
assembler emits: 111111 in NOT, 0 elsewhere (R54, G7); the block ignores them. -/
def encode : Instr → Word
  | .br nzp off9 => pack (0x0#4 ++ nzp ++ off9)
  | .addReg dr sr1 sr2 => pack (0x1#4 ++ dr ++ sr1 ++ 0b000#3 ++ sr2)
  | .addImm dr sr1 imm5 => pack (0x1#4 ++ dr ++ sr1 ++ 0b1#1 ++ imm5)
  | .ld dr off9 => pack (0x2#4 ++ dr ++ off9)
  | .st sr off9 => pack (0x3#4 ++ sr ++ off9)
  | .jsrr baser => pack (0x4#4 ++ 0b000#3 ++ baser ++ 0b000000#6)
  | .jsr off11 => pack (0x4#4 ++ 0b1#1 ++ off11)
  | .andReg dr sr1 sr2 => pack (0x5#4 ++ dr ++ sr1 ++ 0b000#3 ++ sr2)
  | .andImm dr sr1 imm5 => pack (0x5#4 ++ dr ++ sr1 ++ 0b1#1 ++ imm5)
  | .ldr dr baser off6 => pack (0x6#4 ++ dr ++ baser ++ off6)
  | .str sr baser off6 => pack (0x7#4 ++ sr ++ baser ++ off6)
  | .rti low => pack (0x8#4 ++ low)
  | .not dr sr => pack (0x9#4 ++ dr ++ sr ++ 0b111111#6)
  | .ldi dr off9 => pack (0xA#4 ++ dr ++ off9)
  | .sti sr off9 => pack (0xB#4 ++ sr ++ off9)
  | .jmp baser => pack (0xC#4 ++ 0b000#3 ++ baser ++ 0b000000#6)
  | .res low => pack (0xD#4 ++ low)
  | .lea dr off9 => pack (0xE#4 ++ dr ++ off9)
  | .trap high vect => pack (0xF#4 ++ high ++ vect)
  | .trapGetc => 0xF020
  | .trapOut => 0xF021
  | .trapPuts => 0xF022
  | .trapIn => 0xF023
  | .trapPutsp => 0xF024
  | .trapHalt => 0xF025

/-! ### The opcode table -/

/-- A row of spec/opcode_table.json: its match and its mask. -/
structure TableRow where
  value : Word
  mask : Word
  deriving DecidableEq, Repr

/-- The row of each instruction, as the table gives it. -/
def tableRow : Instr → TableRow
  | .br _ _ => ⟨0x0000, 0xF000⟩
  | .addReg _ _ _ => ⟨0x1000, 0xF020⟩
  | .addImm _ _ _ => ⟨0x1020, 0xF020⟩
  | .ld _ _ => ⟨0x2000, 0xF000⟩
  | .st _ _ => ⟨0x3000, 0xF000⟩
  | .jsrr _ => ⟨0x4000, 0xF800⟩
  | .jsr _ => ⟨0x4800, 0xF800⟩
  | .andReg _ _ _ => ⟨0x5000, 0xF020⟩
  | .andImm _ _ _ => ⟨0x5020, 0xF020⟩
  | .ldr _ _ _ => ⟨0x6000, 0xF000⟩
  | .str _ _ _ => ⟨0x7000, 0xF000⟩
  | .rti _ => ⟨0x8000, 0xF000⟩
  | .not _ _ => ⟨0x9000, 0xF000⟩
  | .ldi _ _ => ⟨0xA000, 0xF000⟩
  | .sti _ _ => ⟨0xB000, 0xF000⟩
  | .jmp _ => ⟨0xC000, 0xF000⟩
  | .res _ => ⟨0xD000, 0xF000⟩
  | .lea _ _ => ⟨0xE000, 0xF000⟩
  | .trap _ _ => ⟨0xF000, 0xF000⟩
  | .trapGetc => ⟨0xF020, 0xF0FF⟩
  | .trapOut => ⟨0xF021, 0xF0FF⟩
  | .trapPuts => ⟨0xF022, 0xF0FF⟩
  | .trapIn => ⟨0xF023, 0xF0FF⟩
  | .trapPutsp => ⟨0xF024, 0xF0FF⟩
  | .trapHalt => ⟨0xF025, 0xF0FF⟩

/-- All rows of the table, in its order. -/
def opcodeTable : List TableRow :=
  [⟨0x0000, 0xF000⟩, ⟨0x1000, 0xF020⟩, ⟨0x1020, 0xF020⟩, ⟨0x2000, 0xF000⟩, ⟨0x3000, 0xF000⟩,
   ⟨0x4000, 0xF800⟩, ⟨0x4800, 0xF800⟩, ⟨0x5000, 0xF020⟩, ⟨0x5020, 0xF020⟩, ⟨0x6000, 0xF000⟩] ++
  [⟨0x7000, 0xF000⟩, ⟨0x8000, 0xF000⟩, ⟨0x9000, 0xF000⟩, ⟨0xA000, 0xF000⟩, ⟨0xB000, 0xF000⟩,
   ⟨0xC000, 0xF000⟩, ⟨0xD000, 0xF000⟩, ⟨0xE000, 0xF000⟩, ⟨0xF000, 0xF000⟩] ++
  [⟨0xF020, 0xF0FF⟩, ⟨0xF021, 0xF0FF⟩, ⟨0xF022, 0xF0FF⟩, ⟨0xF023, 0xF0FF⟩, ⟨0xF024, 0xF0FF⟩, ⟨0xF025, 0xF0FF⟩]

/-- The word has the row's fixed bits. -/
def TableRow.matches (r : TableRow) (w : Word) : Bool := w &&& r.mask == r.value

end Sys2Proof
end

