-- ==== Sys2Proof/Machine/Memory.lean ====
section
/-! DEFINITION. The storage array M (R28, R29): bytes at keys, words of two bytes, and the canonical form. -/

namespace Sys2Proof.Machine

/-- The keys of a memory's bytes lie below this: two for each of the 65,536 words (R28). -/
def memKeys : Nat := 131072

/-- The byte at a key; 0 where no cell lists it (R28: "Memory is created zero-filled at startup"). -/
def Mem.readByte : Mem → Nat → Byte
  | [], _ => 0
  | (k, v) :: rest, a => if a = k then v else Mem.readByte rest a

/-- Puts a cell in front of the first one with a greater key. -/
def Mem.insertCell (a : Nat) (b : Byte) : Mem → Mem
  | [] => [(a, b)]
  | (k, v) :: rest => if a < k then (a, b) :: (k, v) :: rest else (k, v) :: Mem.insertCell a b rest

/-- Stores a byte at a key: the old cell goes, and a new one comes unless the byte is what an unlisted key reads as. -/
def Mem.writeByte (m : Mem) (a : Nat) (b : Byte) : Mem :=
  if b = 0 then m.filter (fun c => c.1 ≠ a) else Mem.insertCell a b (m.filter (fun c => c.1 ≠ a))

/-- The canonical form: keys strictly rising and in range, no cell equal to what an unlisted key reads as. -/
abbrev Mem.wf (m : Mem) : Prop :=
  m.Pairwise (fun c d => c.1 < d.1) ∧ ∀ c ∈ m, c.1 < memKeys ∧ c.2 ≠ 0

/-- The key of a word's first byte. -/
def firstKey (a : Word) : Nat := 2 * a.toNat

/-- The word at an address: M[a] of R28. -/
def Mem.read (m : Mem) (a : Word) : Word :=
  wordOfBytes (m.readByte (firstKey a)) (m.readByte (firstKey a + 1))

/-- M[a] <- v of R28. -/
def Mem.write (m : Mem) (a v : Word) : Mem :=
  (m.writeByte (firstKey a) (firstByte v)).writeByte (firstKey a + 1) (secondByte v)

/-- M[a], M[a+1], ... <- the words, the address wrapping (R30). -/
def Mem.writeWords (m : Mem) (a : Word) : List Word → Mem
  | [] => m
  | w :: ws => Mem.writeWords (m.write a w) (a + 1) ws

end Sys2Proof.Machine
end

