-- ==== Sys2Proof/Machine/Ops.lean ====
section
/-! DEFINITION. The named operations every meaning is built from: the register file (R19), the console (R86), the
memory ports and the memory_mapped_io_decoder (R31-R38), the fetch (R57), trap entry (R102) and the fatal exception (R98). -/

namespace Sys2Proof.Machine

/-! ### Register file (R19) -/

/-- `x[i]` of R10. -/
def State.readReg (s : State) (i : RegIdx) : Word := s.regs[i.toNat]'(by have := i.isLt; omega)

/-- `x[i] <- v` of R10; no register is hard-wired (R15). -/
def State.writeReg (s : State) (i : RegIdx) (v : Word) : State :=
  { s with regs := s.regs.set i.toNat v (by have := i.isLt; omega) }

/-- `pc <- v` of R10. -/
def State.setPc (s : State) (v : Word) : State := { s with pc := v }

/-- `x[DR] <- v; setcc(v)`: how every flag-defining instruction ends (R21). -/
def State.writeResult (s : State) (i : RegIdx) (v : Word) : State := (s.writeReg i v).setcc v

/-! ### Console (R86) -/

/-- The host's next answer, taken from the console. -/
def nextAnswer (s : State) : Option Byte × State :=
  match s.console with
  | [] => (none, s)
  | x :: rest => (x, { s with console := rest })

/-- `ConsolePoll()` of R86: none, or the next byte of the input stream, which it consumes; the host's draw (U6). -/
def consolePoll (s : State) : Option Byte × State := nextAnswer s

/-- One try of `ConsoleRead()` of R86: `none` where the host has not supplied a byte yet, and the block holds (R94). -/
def consoleRead (s : State) : Option Byte × State := nextAnswer s

/-- `ConsoleWrite(b)` of R86. -/
def State.consoleWrite (s : State) (b : Byte) : State := { s with output := s.output ++ [b] }

/-- `ConsoleWrite` of each byte in turn (R90, R92). -/
def State.consoleWriteAll (s : State) (bs : List Byte) : State := { s with output := s.output ++ bs }

/-! ### Memory ports (R31-R38) -/

/-- `RawRead(addr)` of R38. -/
def rawRead (a : Word) (s : State) : Word := s.mem.read a

/-- `MemWrite(addr, v)` of R32: a plain store at every address, KBSR and KBDR included (R37). -/
def memWrite (a v : Word) (s : State) : State := { s with mem := s.mem.write a v }

/-- `KbsrPoll()` of R34. -/
def kbsrPoll (s : State) : State :=
  match consolePoll s with
  | (some b, t) => memWrite Config.kbdrAddr (zext b) (memWrite Config.kbsrAddr 0x8000 t)
  | (none, t) => memWrite Config.kbsrAddr 0x0000 t

/-- `MemRead(addr)` of R31: a read of KBSR_ADDR polls first. -/
def memRead (a : Word) (s : State) : Word × State :=
  if a = Config.kbsrAddr then (rawRead a (kbsrPoll s), kbsrPoll s) else (rawRead a s, s)

/-- A request to the memory_mapped_io_decoder (R33). -/
inductive MemRequest where
  | read (addr : Word)
  | write (addr data : Word)
  deriving DecidableEq, Repr

/-- The memory_mapped_io_decoder of R33: a read gives a word, a write none. -/
def mmioAccess (r : MemRequest) (s : State) : Option Word × State :=
  match r with
  | .read a => (some (memRead a s).1, (memRead a s).2)
  | .write a v => (none, memWrite a v s)

/-! ### Fetch (R57) -/

/-- `Fetch()` of R57: the word at PC through the memory read port, then PC + 1 modulo 65536. -/
def fetch (s : State) : Word × State :=
  ((memRead s.pc s).1, (memRead s.pc s).2.setPc (s.pc + 1))

/-! ### Traps, the fatal exception and the end of a run -/

/-- Trap entry (R84, R102): the only thing saved is `x[7] <- pc`. -/
def trapEntry (s : State) : State := s.writeReg 7 s.pc

/-- Return from a trap routine (R103): execution goes on at `pc`, which no routine writes; no state is restored. -/
def trapReturn (s : State) : State := s

/-- `raise Fatal(cause, word)` of R98: everything but the run state keeps its value. -/
def raiseFatal (cause : FatalCause) (word : Word) (s : State) : State := { s with run := .fatal cause word }

/-- `halt` of R10 and R92. -/
def State.haltRun (s : State) : State := { s with run := .halted }

/-- The host abort of R110: everything but the run state keeps its value. -/
def State.hostAbort (s : State) : State := { s with run := .aborted }

end Sys2Proof.Machine
end

