-- ==== Sys2Proof/Machine/Trap.lean ====
section
/-! DEFINITION. TRAP, the trap_dispatcher and the six console routines (R84-R94). -/

namespace Sys2Proof.Machine

/-! ### Console reads that hold (R94) -/

/-- One try of `ConsoleRead` inside a routine: with a byte the routine ends as `finish` says, without one the block is
held inside it (R94), RUNNING, until a later step's try. -/
def readOrHold (h : Hold) (finish : Byte → State → State) (s : State) : State :=
  match consoleRead s with
  | (some b, t) => finish b { t with hold := .free }
  | (none, t) => { t with hold := h }

/-- GETC after its byte came (R87): no echo, zero-extended. -/
def finishGetc (b : Byte) (s : State) : State := trapReturn (s.writeReg 0 (zext b))

/-- IN after its byte came (R90): echo, then zero-extended (D14). -/
def finishIn (b : Byte) (s : State) : State := trapReturn ((s.consoleWrite b).writeReg 0 (zext b))

/-- A step of a block that is held inside GETC or IN (R94). -/
def resumeHeld (s : State) : State :=
  match s.hold with
  | .free => s
  | .getc => readOrHold .getc finishGetc s
  | .inp => readOrHold .inp finishIn s

/-! ### Strings in memory (R38, R89, R91) -/

/-- `StrRead(a)` of R89: RawRead, or MemRead where TRAP_STRING_READ_POLLS is true (R38). -/
def strRead (polls : Bool) (a : Word) (s : State) : Word × State :=
  if polls then memRead a s else (rawRead a s, s)

/-- The scan of R89 and R91 from address `a`, with `rest` more words up to 0xFFFF: `emit` gives the bytes of a word that
is not the terminator 0x0000; after the word at 0xFFFF the scan stops (D12). -/
def scanString (polls : Bool) (emit : Word → List Byte) : (rest : Nat) → (a : Word) → State → State
  | 0, a, s =>
    let r := strRead polls a s
    if r.1 = 0x0000 then r.2 else r.2.consoleWriteAll (emit r.1)
  | rest + 1, a, s =>
    let r := strRead polls a s
    if r.1 = 0x0000 then r.2 else scanString polls emit rest (a + 1) (r.2.consoleWriteAll (emit r.1))

/-- What PUTS writes for a word: bits 7:0 (R89, D13). -/
def putsBytes (w : Word) : List Byte := [field w 0 8]

/-- What PUTSP writes for a word: bits 7:0 always, then bits 15:8 if they are not 0 (R91). -/
def putspBytes (w : Word) : List Byte :=
  if field w 8 8 = 0 then [field w 0 8] else [field w 0 8, field w 8 8]

/-- The scan of the string at the address in R0. -/
def writeString (polls : Bool) (emit : Word → List Byte) (s : State) : State :=
  scanString polls emit (65535 - (s.readReg 0).toNat) (s.readReg 0) s

/-! ### The routines -/

/-- GETC (R87). -/
def routineGetc (s : State) : State := readOrHold .getc finishGetc s

/-- OUT (R88): bits 7:0 of R0. -/
def routineOut (s : State) : State := trapReturn (s.consoleWrite (field (s.readReg 0) 0 8))

/-- PUTS (R89). -/
def routinePuts (s : State) : State := trapReturn (writeString Config.trapStringReadPolls putsBytes s)

/-- IN (R90): the prompt is written before the hold. -/
def routineIn (s : State) : State := readOrHold .inp finishIn (s.consoleWriteAll Config.inPrompt)

/-- PUTSP (R91). -/
def routinePutsp (s : State) : State := trapReturn (writeString Config.trapStringReadPolls putspBytes s)

/-- HALT (R92): the message, then HALTED; that every byte is then delivered is `Safety`'s `Delivered`. -/
def routineHalt (s : State) : State := (s.consoleWriteAll Config.haltMsg).haltRun

/-- `TrapDispatch(v, word)` of R85. -/
def trapDispatch (v : BitVec 8) (word : Word) (s : State) : State :=
  if v = 0x20 then routineGetc s
  else if v = 0x21 then routineOut s
  else if v = 0x22 then routinePuts s
  else if v = 0x23 then routineIn s
  else if v = 0x24 then routinePutsp s
  else if v = 0x25 then routineHalt s
  else raiseFatal .unimplementedTrapVector word s

/-! ### The meanings -/

/-- TRAP, the generic row (R84, R85): R7 is written before the vector is looked at, so also before the fatal error (D10). -/
def execTrap (high : BitVec 4) (vect : BitVec 8) (s : State) : Result :=
  .next (trapDispatch vect (encode (.trap high vect)) (trapEntry s))

/-- TRAP GETC (R84, R87). -/
def execTrapGetc (s : State) : Result := .next (routineGetc (trapEntry s))

/-- TRAP OUT (R84, R88). -/
def execTrapOut (s : State) : Result := .next (routineOut (trapEntry s))

/-- TRAP PUTS (R84, R89). -/
def execTrapPuts (s : State) : Result := .next (routinePuts (trapEntry s))

/-- TRAP IN (R84, R90). -/
def execTrapIn (s : State) : Result := .next (routineIn (trapEntry s))

/-- TRAP PUTSP (R84, R91). -/
def execTrapPutsp (s : State) : Result := .next (routinePutsp (trapEntry s))

/-- TRAP HALT (R84, R92). -/
def execTrapHalt (s : State) : Result := .next (routineHalt (trapEntry s))

end Sys2Proof.Machine
end

