-- ==== Sys2Proof/Machine/Boundary.lean ====
section
/-! DEFINITION. What happens at the boundary between two steps: the host's abort (R110, D21), and the placing of an
instruction's word where the next step fetches. -/

namespace Sys2Proof.Machine

/-- The host aborts at this boundary (R110): between two instructions, or during a hold. -/
def abortsNow (s : State) : Bool := s.abortIn == some 0

/-- One boundary passes without an abort (log entry 11). -/
def passBoundary (s : State) : State := { s with abortIn := s.abortIn.map (· - 1) }

/-- The word placed at the address the next step fetches from, in a state whose next step does fetch: RUNNING, not held,
no abort at hand. Stands for the host's image load (R113; log entry 20). -/
def placeAtPc (s : State) (word : Word) : State :=
  { s with mem := s.mem.write s.pc word, run := .running, hold := .free, abortIn := none }

end Sys2Proof.Machine
end

