-- ==== Sys2Proof/Machine/Operands.lean ====
section
/-! DEFINITION. The operand forms: the second operand of ADD and AND (R65-R68), the addressing modes of the
load_store_unit (R76) and the targets of control transfer (R71, R73). -/

namespace Sys2Proof.Machine

/-- The second operand of ADD and AND. -/
inductive Operand where
  /-- SR2 of format F-OPR. -/
  | register (sr2 : RegIdx)
  /-- imm5 of format F-OPI, sign-extended (R53). -/
  | immediate (imm5 : BitVec 5)
  deriving DecidableEq, Repr

/-- The value of a second operand. -/
def Operand.value (o : Operand) (s : State) : Word :=
  match o with
  | .register r => s.readReg r
  | .immediate imm => sext imm

/-- `pc + sext_N(offset)`: the PC-relative mode of R76 and the targets of R71 and R73; `pc` is the address after the instruction. -/
def pcRelative {n : Nat} (off : BitVec n) (s : State) : Word := s.pc + sext off

/-- `x[BaseR] + sext_6(offset6)`: the base + offset mode of R76. -/
def baseOffset (baser : RegIdx) (off6 : BitVec 6) (s : State) : Word := s.readReg baser + sext off6

/-- `MemRead(pc + sext_9(PCoffset9))`: the indirect mode of R76, whose pointer read may poll. -/
def indirect (off9 : BitVec 9) (s : State) : Word × State := memRead (pcRelative off9 s) s

end Sys2Proof.Machine
end

