-- ==== Sys2Proof/Machine/Control.lean ====
section
/-! DEFINITION. Control transfer: BR, JMP (RET), JSR, JSRR (R70-R75). `pc` is the address after the instruction (R57). -/

namespace Sys2Proof.Machine

/-- BR (R71). -/
def execBr (nzp : BitVec 3) (off9 : BitVec 9) (s : State) : Result :=
  .next (if branchTaken nzp s.cond then s.setPc (pcRelative off9 s) else s)

/-- JMP, and RET as JMP R7 (R72). -/
def execJmp (baser : RegIdx) (s : State) : Result := .next (s.setPc (s.readReg baser))

/-- `x[7] <- pc`: the link of JSR and JSRR (R73, R74). -/
def linkR7 (s : State) : State := s.writeReg 7 s.pc

/-- JSR (R73). -/
def execJsr (off11 : BitVec 11) (s : State) : Result := .next ((linkR7 s).setPc (pcRelative off11 s))

/-- JSRR (R74): the base is read after R7 is written, so `JSRR R7` goes on at the next instruction. -/
def execJsrr (baser : RegIdx) (s : State) : Result := .next ((linkR7 s).setPc ((linkR7 s).readReg baser))

end Sys2Proof.Machine
end

