-- ==== Sys2Proof/Machine/LoadStore.lean ====
section
/-! DEFINITION. The load_store_unit: LD, LDI, LDR, LEA, ST, STI, STR (R76-R83). -/

namespace Sys2Proof.Machine

/-- `v <- MemRead(ea); x[DR] <- v; setcc(v)`: how LD, LDI and LDR end (R77-R79). -/
def loadFrom (ea : Word) (dr : RegIdx) (s : State) : State :=
  (memRead ea s).2.writeResult dr (memRead ea s).1

/-- `MemWrite(ea, x[SR])`: how ST, STI and STR end (R81-R83). -/
def storeTo (ea : Word) (sr : RegIdx) (s : State) : State := memWrite ea (s.readReg sr) s

/-- LD (R77). -/
def execLd (dr : RegIdx) (off9 : BitVec 9) (s : State) : Result := .next (loadFrom (pcRelative off9 s) dr s)

/-- LDI (R78): the pointer read, then the data read, either of which may poll. -/
def execLdi (dr : RegIdx) (off9 : BitVec 9) (s : State) : Result :=
  .next (loadFrom (indirect off9 s).1 dr (indirect off9 s).2)

/-- LDR (R79). -/
def execLdr (dr baser : RegIdx) (off6 : BitVec 6) (s : State) : Result := .next (loadFrom (baseOffset baser off6 s) dr s)

/-- LEA (R80): no memory access. -/
def execLea (dr : RegIdx) (off9 : BitVec 9) (s : State) : Result := .next (s.writeResult dr (pcRelative off9 s))

/-- ST (R81). -/
def execSt (sr : RegIdx) (off9 : BitVec 9) (s : State) : Result := .next (storeTo (pcRelative off9 s) sr s)

/-- STI (R82): the pointer read may poll, the store does not. -/
def execSti (sr : RegIdx) (off9 : BitVec 9) (s : State) : Result :=
  .next (storeTo (indirect off9 s).1 sr (indirect off9 s).2)

/-- STR (R83). -/
def execStr (sr baser : RegIdx) (off6 : BitVec 6) (s : State) : Result := .next (storeTo (baseOffset baser off6 s) sr s)

end Sys2Proof.Machine
end

