-- ==== Sys2Proof/Machine/Operate.lean ====
section
/-! DEFINITION. The alu (R64) and the operate instructions ADD, AND, NOT (R65-R69). -/

namespace Sys2Proof.Machine

/-- The three operations of the alu (R64). -/
inductive AluOp where
  | add
  | and
  | not
  deriving DecidableEq, Repr

/-- The alu (R64): 16-bit wraparound add, bitwise and, bitwise complement of `a`. -/
def alu (op : AluOp) (a b : Word) : Word :=
  match op with
  | .add => a + b
  | .and => a &&& b
  | .not => ~~~a

/-- The shape of R65-R68: both operands read, then the result and COND written. -/
def operate (op : AluOp) (dr sr1 : RegIdx) (o : Operand) (s : State) : State :=
  s.writeResult dr (alu op (s.readReg sr1) (o.value s))

/-- ADD, register form (R65). -/
def execAddReg (dr sr1 sr2 : RegIdx) (s : State) : Result := .next (operate .add dr sr1 (.register sr2) s)

/-- ADD, immediate form (R66). -/
def execAddImm (dr sr1 : RegIdx) (imm5 : BitVec 5) (s : State) : Result := .next (operate .add dr sr1 (.immediate imm5) s)

/-- AND, register form (R67). -/
def execAndReg (dr sr1 sr2 : RegIdx) (s : State) : Result := .next (operate .and dr sr1 (.register sr2) s)

/-- AND, immediate form (R68). -/
def execAndImm (dr sr1 : RegIdx) (imm5 : BitVec 5) (s : State) : Result := .next (operate .and dr sr1 (.immediate imm5) s)

/-- NOT (R69); the alu does not use its second operand. -/
def execNot (dr sr : RegIdx) (s : State) : Result := .next (s.writeResult dr (alu .not (s.readReg sr) 0))

end Sys2Proof.Machine
end

