-- ==== Sys2Proof/Machine/Reserved.lean ====
section
/-! DEFINITION. The reserved opcodes RTI and RES (R95, R96): each takes the fatal exception UnimplementedOpcode. -/

namespace Sys2Proof.Machine

/-- RTI (R95). -/
def execRti (low : BitVec 12) (s : State) : Result := .next (raiseFatal .unimplementedOpcode (encode (.rti low)) s)

/-- RES (R96). -/
def execRes (low : BitVec 12) (s : State) : Result := .next (raiseFatal .unimplementedOpcode (encode (.res low)) s)

end Sys2Proof.Machine
end

