-- ==== Sys2Proof/Machine/Step.lean ====
section
/-! DEFINITION. The execution loop (R58): one step of the block, and the placing of a table row's word for it. -/

namespace Sys2Proof.Machine

/-- One step of a RUNNING block that the host does not abort: fetch, decode, execute (R57-R59), or one more try of the
console read it is held in (R94). -/
def advance (s : State) : Result :=
  match s.hold with
  | .free => exec (decode (fetch s).1) (fetch s).2
  | .getc => .next (resumeHeld s)
  | .inp => .next (resumeHeld s)

/-- One step. Only a RUNNING block does anything (R58); HALTED, FATAL and ABORTED are terminal and nothing changes in
them (R23, D26; log entry 12, DESIGN CHOICE, safe). -/
def step (s : State) : Host.Outcome State Fault Refusal :=
  match s.run with
  | .running => if abortsNow s then .next s.hostAbort else advance (passBoundary s)
  | .halted => .next s
  | .fatal _ _ => .next s
  | .aborted => .next s

/-- `s` with the table word `w` of `nbits` bits stored at its PC, so that the next step fetches and runs it. -/
def State.withFetchWord (s : State) (nbits w : Nat) : State := placeAtPc s (BitVec.ofNat 16 (w % 2 ^ nbits))

end Sys2Proof.Machine
end

