-- ==== Sys2Proof/Machine/Loader.lean ====
section
/-! DEFINITION. The image-load interface (R113-R115) and the start of a run (R111): how the host fills memory before the
first fetch. The loader's file access is out of scope (R3). -/

namespace Sys2Proof.Machine

/-- A word of an image, high byte first (R113). -/
def bigEndian (hi lo : Byte) : Word := pack (hi ++ lo)

/-- The words of an image's bytes; none where a byte is left over (N21, U18). -/
def imageWords : List Byte → Option (List Word)
  | [] => some []
  | [_] => none
  | hi :: lo :: rest => (imageWords rest).map (bigEndian hi lo :: ·)

/-- What loading answers. -/
inductive LoadOutcome where
  /-- The memory after the load. -/
  | loaded (m : Mem)
  /-- A load failure (R115): no instruction executes. -/
  | failed
  /-- An image the spec makes no claim about: an odd number of bytes, or fewer than two (U18). Log entry 19, safe. -/
  | notDescribed
  deriving DecidableEq, Repr

/-- The words that fit above an origin (R115). -/
def roomAbove (origin : Word) : Nat := 65536 - origin.toNat

/-- `M[O + i] <- w_i` (R113), or what the policy says where the image is longer than the room above its origin (R115). -/
def loadWords (policy : LoaderPolicy) (m : Mem) (origin : Word) (ws : List Word) : LoadOutcome :=
  if ws.length ≤ roomAbove origin then .loaded (m.writeWords origin ws)
  else match policy with
    | .reject => .failed
    | .truncate => .loaded (m.writeWords origin (ws.take (roomAbove origin)))

/-- The load of one image (R113); `none` stands for a file that is missing or unreadable (R115). -/
def loadImage (policy : LoaderPolicy) (m : Mem) (image : Option (List Byte)) : LoadOutcome :=
  match image with
  | none => .failed
  | some bytes =>
    match imageWords bytes with
    | some (origin :: ws) => loadWords policy m origin ws
    | some [] => .notDescribed
    | none => .notDescribed

/-- The loads of all images in the order given, the first failure ending them (R111, R114). -/
def loadImages (policy : LoaderPolicy) (m : Mem) : List (Option (List Byte)) → LoadOutcome
  | [] => .loaded m
  | image :: rest =>
    match loadImage policy m image with
    | .loaded m' => loadImages policy m' rest
    | .failed => .failed
    | .notDescribed => .notDescribed

/-- What startup answers. -/
inductive BootOutcome where
  /-- The state before the first fetch. -/
  | started (s : State)
  /-- A load failure or no image at all: there is no run (R111, R115). -/
  | noRun
  /-- An image the spec makes no claim about (U18). -/
  | notDescribed
  deriving DecidableEq, Repr

/-- Startup (R111): zero-filled memory, the images in order, then RUNNING at 0x3000. -/
def boot (policy : LoaderPolicy) (cond : BitVec 3) (images : List (Option (List Byte)))
    (console : List (Option Byte)) (abortIn : Option Nat) : BootOutcome :=
  if images = [] then .noRun
  else match loadImages policy [] images with
    | .loaded m => .started (State.initial cond m console abortIn)
    | .failed => .noRun
    | .notDescribed => .notDescribed

/-- Startup with the parameters of R5 at the block's own values. -/
def bootBlock (images : List (Option (List Byte))) (console : List (Option Byte)) (abortIn : Option Nat) : BootOutcome :=
  boot Config.loaderOverflowPolicy Config.condReset images console abortIn

end Sys2Proof.Machine
end

