-- ==== Sys2Proof/Machine/RunEnd.lean ====
section
/-! DEFINITION. The end of a run (R120): cause codes and the exit codes the host reports. -/

namespace Sys2Proof.Machine

/-- The cause codes of R97. -/
def FatalCause.code : FatalCause → Nat
  | .unimplementedOpcode => 1
  | .unimplementedTrapVector => 2

/-- The run has ended: the run state has left RUNNING (R120). -/
def RunState.ended : RunState → Bool
  | .running => false
  | .halted => true
  | .fatal _ _ => true
  | .aborted => true

/-- The process exit code at the end of a run (R120); none while the run goes on. -/
def RunState.exitCode : RunState → Option Nat
  | .running => none
  | .halted => some 0
  | .fatal _ _ => some Config.fatalExitCode
  | .aborted => some Config.interruptExitCode

end Sys2Proof.Machine
end

