-- ==== Sys2Proof/Safety.lean ====
section
/-! DEFINITION. The terms claims use: the invariant, runs, what is observed at the end of one, and which instructions
write what. -/

namespace Sys2Proof.Machine

/-! ### The invariant -/

/-- COND holds its reset value or exactly one flag (R17, R18). -/
def condLegal (c : BitVec 3) : Bool := c == 0b000 || c == flagN || c == flagZ || c == flagP

/-- The word is one that raises the cause (R97). -/
def raises : FatalCause → Word → Bool
  | .unimplementedOpcode, w => fatalOpcode w
  | .unimplementedTrapVector, w => opcode w == 0xF && !definedVector (trapvect8 w)

/-- What holds of every state the block comes to: memory canonical; COND legal (R17, R18); a held block's R7 is its PC
(R84, R94); a halted block's too, and it is not held (R92); a fatal end has a word of its cause (R97), is not held, and
after an unknown vector has R7 = PC (R98). -/
structure State.Inv (s : State) : Prop where
  mem_wf : s.mem.wf
  cond_legal : condLegal s.cond = true
  held : s.hold ≠ .free → s.readReg 7 = s.pc
  halted : s.run = .halted → s.hold = .free ∧ s.readReg 7 = s.pc
  fatal : ∀ c w, s.run = .fatal c w →
    s.hold = .free ∧ raises c w = true ∧ (c = .unimplementedTrapVector → s.readReg 7 = s.pc)

/-! ### Runs -/

/-- The run of `k` steps from `s` answers `t`. -/
def RunsTo (s : State) (k : Nat) (t : State) : Prop := core.run k s = .next t

/-- The run state is FATAL. -/
def State.isFatal (s : State) : Bool :=
  match s.run with
  | .fatal _ _ => true
  | .running => false
  | .halted => false
  | .aborted => false

/-- "Runs without fault": no reached state is FATAL (R99). -/
def RunsWithoutFault (s : State) : Prop := ∀ k t, RunsTo s k t → t.isFatal = false

/-! ### What a claim observes (R121) -/

structure Observation where
  run : RunState
  output : List Byte
  regs : Vector Word 8
  pc : Word
  cond : BitVec 3
  mem : Mem
  deriving DecidableEq, Repr

def observe (s : State) : Observation :=
  { run := s.run, output := s.output, regs := s.regs, pc := s.pc, cond := s.cond, mem := s.mem }

/-- Which bytes the terminal may have received: all of them at HALTED, which flushes (R92), else any prefix (R121, U16). -/
def Delivered (s : State) (bs : List Byte) : Prop :=
  match s.run with
  | .halted => bs = s.output
  | .running => bs <+: s.output
  | .fatal _ _ => bs <+: s.output
  | .aborted => bs <+: s.output

/-- The bytes of the input stream still to come, in order (R25): the console's answers that hold a byte. -/
def inputStream (s : State) : List Byte := s.console.filterMap id

/-! ### What each instruction may write (R16, R21, R22, R39) -/

/-- The flag-defining instructions: exactly ADD, AND, NOT, LD, LDI, LDR, LEA (R21); the register is the one whose new
value COND describes. -/
def flagDefining : Instr → Option RegIdx
  | .addReg dr _ _ => some dr
  | .addImm dr _ _ => some dr
  | .andReg dr _ _ => some dr
  | .andImm dr _ _ => some dr
  | .not dr _ => some dr
  | .ld dr _ => some dr
  | .ldi dr _ => some dr
  | .ldr dr _ _ => some dr
  | .lea dr _ => some dr
  | .br _ _ => none
  | .st _ _ => none
  | .sti _ _ => none
  | .str _ _ _ => none
  | .jmp _ => none
  | .jsr _ => none
  | .jsrr _ => none
  | .rti _ => none
  | .res _ => none
  | .trap _ _ => none
  | .trapGetc => none
  | .trapOut => none
  | .trapPuts => none
  | .trapIn => none
  | .trapPutsp => none
  | .trapHalt => none

/-- The general registers an instruction may write (R22). -/
def gprWritten : Instr → List RegIdx
  | .addReg dr _ _ => [dr]
  | .addImm dr _ _ => [dr]
  | .andReg dr _ _ => [dr]
  | .andImm dr _ _ => [dr]
  | .not dr _ => [dr]
  | .ld dr _ => [dr]
  | .ldi dr _ => [dr]
  | .ldr dr _ _ => [dr]
  | .lea dr _ => [dr]
  | .br _ _ => []
  | .st _ _ => []
  | .sti _ _ => []
  | .str _ _ _ => []
  | .jmp _ => []
  | .jsr _ => [7]
  | .jsrr _ => [7]
  | .rti _ => []
  | .res _ => []
  | .trap _ v => if v = 0x20 ∨ v = 0x23 then [7, 0] else [7]
  | .trapGetc => [7, 0]
  | .trapOut => [7]
  | .trapPuts => [7]
  | .trapIn => [7, 0]
  | .trapPutsp => [7]
  | .trapHalt => [7]

/-- The instruction may write PC after the fetch: BR, JMP, JSR, JSRR (R16, R22). -/
def pcWriter : Instr → Bool
  | .br _ _ => true
  | .jmp _ => true
  | .jsr _ => true
  | .jsrr _ => true
  | .addReg _ _ _ => false
  | .addImm _ _ _ => false
  | .andReg _ _ _ => false
  | .andImm _ _ _ => false
  | .not _ _ => false
  | .ld _ _ => false
  | .ldi _ _ => false
  | .ldr _ _ _ => false
  | .lea _ _ => false
  | .st _ _ => false
  | .sti _ _ => false
  | .str _ _ _ => false
  | .rti _ => false
  | .res _ => false
  | .trap _ _ => false
  | .trapGetc => false
  | .trapOut => false
  | .trapPuts => false
  | .trapIn => false
  | .trapPutsp => false
  | .trapHalt => false

/-- The address an instruction stores to, by the functions its meaning uses (R81-R83). -/
def storeAddress (i : Instr) (s : State) : Option Word :=
  match i with
  | .st _ off9 => some (pcRelative off9 s)
  | .sti _ off9 => some (indirect off9 s).1
  | .str _ baser off6 => some (baseOffset baser off6 s)
  | .br _ _ => none
  | .addReg _ _ _ => none
  | .addImm _ _ _ => none
  | .andReg _ _ _ => none
  | .andImm _ _ _ => none
  | .not _ _ => none
  | .ld _ _ => none
  | .ldi _ _ => none
  | .ldr _ _ _ => none
  | .lea _ _ => none
  | .jmp _ => none
  | .jsr _ => none
  | .jsrr _ => none
  | .rti _ => none
  | .res _ => none
  | .trap _ _ => none
  | .trapGetc => none
  | .trapOut => none
  | .trapPuts => none
  | .trapIn => none
  | .trapPutsp => none
  | .trapHalt => none

/-- The instruction makes a read that polls, beyond its fetch: it loads or takes a pointer from KBSR_ADDR (R31, R39). -/
def polls (i : Instr) (s : State) : Bool :=
  match i with
  | .ld _ off9 => pcRelative off9 s == Config.kbsrAddr
  | .ldi _ off9 => pcRelative off9 s == Config.kbsrAddr || (indirect off9 s).1 == Config.kbsrAddr
  | .ldr _ baser off6 => baseOffset baser off6 s == Config.kbsrAddr
  | .sti _ off9 => pcRelative off9 s == Config.kbsrAddr
  | .st _ _ => false
  | .str _ _ _ => false
  | .br _ _ => false
  | .addReg _ _ _ => false
  | .addImm _ _ _ => false
  | .andReg _ _ _ => false
  | .andImm _ _ _ => false
  | .not _ _ => false
  | .lea _ _ => false
  | .jmp _ => false
  | .jsr _ => false
  | .jsrr _ => false
  | .rti _ => false
  | .res _ => false
  | .trap _ _ => false
  | .trapGetc => false
  | .trapOut => false
  | .trapPuts => false
  | .trapIn => false
  | .trapPutsp => false
  | .trapHalt => false

end Sys2Proof.Machine
end

