-- ==== Sys2Proof/Certificates/Slice0/Obligations.lean ====
section
/-! DEFINITION. The statements for the provers, from the numbered rules of spec/. In statements about `exec`, the state is
the one after the fetch, so `s.pc` is the address after the instruction (R57). -/

open Sys2Proof Sys2Proof.Machine

namespace Sys2Proof.Machine

/-! ### Words the statements share -/

/-- Every general register but the listed ones holds what it held. -/
def RegsKept (but : List RegIdx) (s t : State) : Prop := ∀ r, r ∉ but → t.readReg r = s.readReg r

/-- Every byte of memory reads as before. -/
def MemKept (s t : State) : Prop := ∀ k, t.mem.readByte k = s.mem.readByte k

/-- Every byte of memory outside the listed words reads as before. -/
def MemKeptBut (but : List Word) (s t : State) : Prop :=
  ∀ k, (∀ a ∈ but, k ≠ 2 * a.toNat ∧ k ≠ 2 * a.toNat + 1) → t.mem.readByte k = s.mem.readByte k

/-- The run state, the hold and the host's abort are as before. -/
def ControlKept (s t : State) : Prop := t.run = s.run ∧ t.hold = s.hold ∧ t.abortIn = s.abortIn

/-- Both console streams are as before. -/
def ConsoleKept (s t : State) : Prop := t.output = s.output ∧ t.console = s.console

/-- The host's next answer is no byte (R86). -/
def NoByteNext (s : State) : Prop := ∀ b rest, s.console ≠ some b :: rest

/-- A read of the word at `a` that gives `v` and leaves memory and the host's answers as in `t` (R31, R34): any address but
KBSR_ADDR gives the stored word and changes nothing; KBSR_ADDR polls (ConsolePoll of R86), and the poll writes KBSR, and KBDR
if a byte came. -/
def ReadEffect (a : Word) (s : State) (v : Word) (t : State) : Prop :=
  (a ≠ 0xFE00 → v = s.mem.read a ∧ MemKept s t ∧ t.console = s.console) ∧
  (∀ b, a = 0xFE00 → (consolePoll s).1 = some b →
    v = 0x8000 ∧ t.mem.read 0xFE00 = 0x8000 ∧ t.mem.read 0xFE02 = b.setWidth 16 ∧
    MemKeptBut [0xFE00, 0xFE02] s t ∧ t.console = (consolePoll s).2.console) ∧
  (a = 0xFE00 → (consolePoll s).1 = none →
    v = 0x0000 ∧ t.mem.read 0xFE00 = 0x0000 ∧ MemKeptBut [0xFE00] s t ∧ t.console = (consolePoll s).2.console)

/-- The bits of a word that its instruction reads: all but those R52 marks unused. -/
def usedMask : Instr → Word
  | .addReg _ _ _ => 0xFFE7
  | .andReg _ _ _ => 0xFFE7
  | .not _ _ => 0xFFC0
  | .jmp _ => 0xF1C0
  | .jsrr _ => 0xF9C0
  | .rti _ => 0xF000
  | .res _ => 0xF000
  | .trap _ _ => 0xF0FF
  | .trapGetc => 0xF0FF
  | .trapOut => 0xF0FF
  | .trapPuts => 0xF0FF
  | .trapIn => 0xF0FF
  | .trapPutsp => 0xF0FF
  | .trapHalt => 0xF0FF
  | .br _ _ => 0xFFFF
  | .addImm _ _ _ => 0xFFFF
  | .andImm _ _ _ => 0xFFFF
  | .ld _ _ => 0xFFFF
  | .ldi _ _ => 0xFFFF
  | .ldr _ _ _ => 0xFFFF
  | .lea _ _ => 0xFFFF
  | .st _ _ => 0xFFFF
  | .sti _ _ => 0xFFFF
  | .str _ _ _ => 0xFFFF
  | .jsr _ => 0xFFFF

/-- The big-endian bytes of words, as an image holds them (R113). -/
def imageBytes (ws : List Word) : List Byte := ws.flatMap fun (w : Word) => [(w >>> 8).setWidth 8, w.setWidth 8]

end Sys2Proof.Machine

/-! ### Encoding -/

/-- Words of the spec's own examples and vectors decode to the instructions it names (40-44, 95_test_vectors.md). -/
def Obligations.SampleWordsDecode : Prop :=
  decode 0x1042 = .addReg 0 1 2 ∧ decode 0x1025 = .addImm 0 0 5 ∧ decode 0x5642 = .andReg 3 1 2 ∧
  decode 0x54A0 = .andImm 2 2 0 ∧ decode 0x923F = .not 1 0 ∧ decode 0x0402 = .br 0b010 2 ∧
  decode 0xC1C0 = .jmp 7 ∧ decode 0x4802 = .jsr 2 ∧ decode 0x40C0 = .jsrr 3 ∧ decode 0x2204 = .ld 1 4 ∧
  decode 0xA002 = .ldi 0 2 ∧ decode 0x62BF = .ldr 1 2 0b111111 ∧ decode 0xE007 = .lea 0 7 ∧
  decode 0x3001 = .st 0 1 ∧ decode 0xB202 = .sti 1 2 ∧ decode 0x7442 = .str 2 1 2 ∧
  decode 0x8000 = .rti 0 ∧ decode 0xD123 = .res 0x123 ∧ decode 0xF026 = .trap 0 0x26 ∧ decode 0xFF25 = .trapHalt

/-- R50, R52: no field of a well-formed instruction is lost in its encoding. -/
def Obligations.DecodeInvertsEncode : Prop :=
  ∀ i : Instr, i.wellFormed = true → decode (encode i) = i

/-- 30_encoding.md section 6 (R61, which the spec marks as its own inference): every word decodes to exactly one row of the table, the one with more mask bits where two fit, and a word the block
cannot execute (RTI, RES, a TRAP with an unknown vector) decodes to a row that raises a fatal error. -/
def Obligations.EveryWordFitsItsRow : Prop :=
  ∀ w : Word,
    (decode w).wellFormed = true ∧
    tableRow (decode w) ∈ opcodeTable ∧ (tableRow (decode w)).matches w = true ∧
    (∀ r ∈ opcodeTable, r.matches w = true →
      r = tableRow (decode w) ∨ (r.mask = 0xF000 ∧ (tableRow (decode w)).mask = 0xF0FF)) ∧
    (w.extractLsb' 12 4 = 0x8 ∨ w.extractLsb' 12 4 = 0xD ∨
      (w.extractLsb' 12 4 = 0xF ∧ (w.toNat % 256 < 0x20 ∨ 0x25 < w.toNat % 256)) →
      ∀ s, ∃ t, exec (decode w) s = .next t ∧ t.isFatal = true)

/-- R51: a field is the word shifted right by its low bit and masked to its width; it is the slice of R6. -/
def Obligations.FieldIsShiftThenMask : Prop :=
  ∀ (w : Word) (lo width : Nat),
    (field w lo width).toNat = (w.toNat >>> lo) &&& (2 ^ width - 1) ∧ field w lo width = w.extractLsb' lo width

/-- R60: the decoder's signals, each computed from the word alone. -/
def Obligations.DecoderSignals : Prop :=
  ∀ w : Word,
    opcode w = w.extractLsb' 12 4 ∧ dr w = w.extractLsb' 9 3 ∧ sr1 w = w.extractLsb' 6 3 ∧ sr2 w = w.extractLsb' 0 3 ∧
    immSel w = w.getLsbD 5 ∧ jsrLong w = w.getLsbD 11 ∧ imm5x w = (w.extractLsb' 0 5).signExtend 16 ∧
    off6x w = (w.extractLsb' 0 6).signExtend 16 ∧ off9x w = (w.extractLsb' 0 9).signExtend 16 ∧
    off11x w = (w.extractLsb' 0 11).signExtend 16 ∧ trapvect8 w = w.extractLsb' 0 8 ∧
    (fatalOpcode w = true ↔ w.extractLsb' 12 4 = 0x8 ∨ w.extractLsb' 12 4 = 0xD)

/-- R54: two words that agree on the bits their format reads decode alike; for RTI, RES and a TRAP with an unknown vector,
both are fatal and leave the same state, but for the word the fatal error records. -/
def Obligations.UnusedBitsDoNotMatter : Prop :=
  ∀ w w' : Word, w &&& usedMask (decode w) = w' &&& usedMask (decode w) →
    decode w' = decode w ∨
    ∃ c, ∀ s, ∃ t : State, exec (decode w) s = .next { t with run := .fatal c w } ∧
      exec (decode w') s = .next { t with run := .fatal c w' }

/-- R8: sext_N(f) is f where its top bit is 0, else f + 65536 - 2^N, at every width N from 1 to 16 (the block's 5, 6, 9 and
11 among them). -/
def Obligations.SignExtensionFormula : Prop :=
  ∀ (n : Nat) (f : BitVec n), 0 < n → n ≤ 16 →
    (sext f).toNat = if f.getLsbD (n - 1) then f.toNat + 65536 - 2 ^ n else f.toNat

/-- R64: the alu's three operations on 16 bits, carry and overflow discarded. -/
def Obligations.AluOperations : Prop :=
  ∀ a b : Word,
    (alu .add a b).toNat = (a.toNat + b.toNat) % 65536 ∧
    (∀ k, (alu .and a b).getLsbD k = (a.getLsbD k && b.getLsbD k)) ∧
    (alu .not a b).toNat = 65535 - a.toNat

/-! ### Reset and image load -/

/-- R111, R112 with no image loaded. COND's value is the spec's default (D8, log entry 3); that the host has given no answer
and does not abort is the model's choice (log entry 9). -/
def Obligations.ResetState : Prop :=
  (∀ r, State.reset.readReg r = 0x0000) ∧ State.reset.pc = 0x3000 ∧ State.reset.cond = 0b000 ∧
  (∀ a, State.reset.mem.read a = 0x0000) ∧ State.reset.run = .running ∧ State.reset.hold = .free ∧
  State.reset.output = [] ∧ State.reset.console = [] ∧ State.reset.abortIn = none

/-- R111: reset zeroes R0-R7 and memory, sets COND and PC, loads the images in order, and only if all loads succeed is the
block RUNNING at 0x3000; a failed load means no run. For both values of COND_RESET, whose default is 0b000. There is no restart
after HALTED, FATAL or ABORTED. Not R111's words: the output is empty (R112, which the spec marks as its own inference); the
host's answers and abort are those startup is given (log entries 8, 9 and 11), and the block is not held (log entry 10), which
are the model's choices; and a step of an ended block is answered at all (log entry 12). -/
def Obligations.StartupSequence : Prop :=
  ∀ (policy : LoaderPolicy) (c : BitVec 3) (images : List (Option (List Byte))) (console : List (Option Byte))
    (abortIn : Option Nat), images ≠ [] → (c = 0b000 ∨ c = 0b010) →
    (∀ a, Mem.read [] a = 0x0000) ∧
    (∀ m, loadImages policy [] images = .loaded m →
      ∃ s, boot policy c images console abortIn = .started s ∧ (∀ r, s.readReg r = 0x0000) ∧ s.cond = c ∧
        s.pc = 0x3000 ∧ s.mem = m ∧ s.run = .running ∧ s.hold = .free ∧ s.output = [] ∧ s.console = console ∧
        s.abortIn = abortIn) ∧
    (loadImages policy [] images = .failed → boot policy c images console abortIn = .noRun) ∧
    State.reset.cond = 0b000 ∧ (∀ s t : State, step s = .next t → s.run ≠ .running → t.run ≠ .running)

/-- R113: an image's first big-endian word is its origin O, and its i-th word is stored at O + i; no other word changes. -/
def Obligations.ImageWordsAreStored : Prop :=
  ∀ (policy : LoaderPolicy) (m : Mem) (origin : Word) (ws : List Word), ws.length ≤ 65536 - origin.toNat →
    ∃ m', loadImage policy m (some (imageBytes (origin :: ws))) = .loaded m' ∧
      (∀ i, ∀ h : i < ws.length, m'.read (origin + BitVec.ofNat 16 i) = ws[i]) ∧
      (∀ a : Word, (a.toNat < origin.toNat ∨ origin.toNat + ws.length ≤ a.toNat) → m'.read a = m.read a)

/-- R114: images load one after another in the order given, and where the last one covers an address its word stays. -/
def Obligations.LaterImageWins : Prop :=
  ∀ (policy : LoaderPolicy) (m m1 : Mem) (images : List (Option (List Byte))) (origin : Word) (ws : List Word),
    loadImages policy m images = .loaded m1 → ws.length ≤ 65536 - origin.toNat →
    loadImages policy m (images ++ [some (imageBytes (origin :: ws))]) =
      loadImage policy m1 (some (imageBytes (origin :: ws))) ∧
    ∃ m2, loadImages policy m (images ++ [some (imageBytes (origin :: ws))]) = .loaded m2 ∧
      ∀ i, ∀ h : i < ws.length, m2.read (origin + BitVec.ofNat 16 i) = ws[i]

/-- R115: an image longer than the room above its origin fails under reject; under truncate only the words that fit load and
no word below the origin changes; a missing file fails; after a failed load no run starts, and the exit code is nonzero. That a
start with no image at all is no run either (log entry 19), and that the load-failure code is also its exit code (log entry 18),
are the model's choices. -/
def Obligations.OverlongImagePolicy : Prop :=
  ∀ (m : Mem) (origin : Word) (ws : List Word), 65536 - origin.toNat < ws.length →
    loadImage .reject m (some (imageBytes (origin :: ws))) = .failed ∧
    (∃ m', loadImage .truncate m (some (imageBytes (origin :: ws))) = .loaded m' ∧
      (∀ i, ∀ h : i < ws.length, i < 65536 - origin.toNat → m'.read (origin + BitVec.ofNat 16 i) = ws[i]) ∧
      (∀ a : Word, a.toNat < origin.toNat → m'.read a = m.read a)) ∧
    (∀ policy, loadImage policy m none = .failed) ∧
    (∀ policy c images console abortIn, loadImages policy [] images = .failed ∨ images = [] →
      boot policy c images console abortIn = .noRun) ∧
    Config.loadFailureExitCode ≠ 0

/-! ### Flags, registers and memory over all instructions -/

/-- R20: setcc(v) sets exactly one of N, Z, P and nothing else. -/
def Obligations.SetccRule : Prop :=
  ∀ (v : Word) (s : State),
    (v = 0x0000 → (s.setcc v).cond = 0b010) ∧
    (v.getLsbD 15 = true → (s.setcc v).cond = 0b100) ∧
    (v ≠ 0x0000 → v.getLsbD 15 = false → (s.setcc v).cond = 0b001) ∧
    s.setcc v = { s with cond := (s.setcc v).cond }

/-- R21: exactly ADD, AND, NOT, LD, LDI, LDR and LEA write COND, by the value then in their destination register; every
other instruction leaves COND unchanged. -/
def Obligations.FlagWriters : Prop :=
  ∀ (i : Instr) (s t : State), exec i s = .next t →
    (∀ r, flagDefining i = some r → t.cond =
      if t.readReg r = 0x0000 then 0b010 else if (t.readReg r).getLsbD 15 then 0b100 else 0b001) ∧
    (flagDefining i = none → t.cond = s.cond)

/-- R22: the table of the registers each instruction writes: no other general register changes; PC only by BR, JMP, JSR, JSRR;
COND only by the flag-defining instructions. -/
def Obligations.RegistersWrittenTable : Prop :=
  ∀ (i : Instr) (s t : State), exec i s = .next t →
    RegsKept (gprWritten i) s t ∧ (pcWriter i = false → t.pc = s.pc) ∧ (flagDefining i = none → t.cond = s.cond)

/-- R39, R42: an instruction changes no byte outside the word it stores to and, where one of its reads polls, the two device
words. PUTS and PUTSP poll nowhere: TRAP_STRING_READ_POLLS at its default (log entry 13). -/
def Obligations.StoresChangeOneWord : Prop :=
  ∀ (i : Instr) (s t : State) (k : Nat), exec i s = .next t →
    (∀ a, storeAddress i s = some a → k ≠ 2 * a.toNat ∧ k ≠ 2 * a.toNat + 1) →
    (polls i s = true → k ≠ 2 * 0xFE00 ∧ k ≠ 2 * 0xFE00 + 1 ∧ k ≠ 2 * 0xFE02 ∧ k ≠ 2 * 0xFE02 + 1) →
    t.mem.readByte k = s.mem.readByte k

/-- 10_state.md section 10 (R26, which the spec marks as its own inference): only BR reads COND: any other instruction does the same from two states that differ only in COND, and the results
differ at most in COND. -/
def Obligations.OnlyBranchReadsCond : Prop :=
  ∀ (i : Instr) (c : BitVec 3) (s t : State), (∀ nzp off9, i ≠ .br nzp off9) → exec i s = .next t →
    exec i { s with cond := c } = .next { t with cond := if flagDefining i = none then c else t.cond }

/-! ### Memory ports, fetch and step -/

/-- R31, R34: MemRead never fails; a read of KBSR_ADDR polls once before it returns and updates KBSR, and KBDR where a byte
came; every other read changes nothing. No register, PC, COND or output changes. -/
def Obligations.MemReadRule : Prop :=
  ∀ (a : Word) (s : State),
    ReadEffect a s (memRead a s).1 (memRead a s).2 ∧ RegsKept [] s (memRead a s).2 ∧
    (memRead a s).2.pc = s.pc ∧ (memRead a s).2.cond = s.cond ∧ (memRead a s).2.output = s.output ∧
    ControlKept s (memRead a s).2

/-- R32: MemWrite stores at every address, KBSR_ADDR and KBDR_ADDR included, and has no other effect. -/
def Obligations.MemWriteIsPlainStore : Prop :=
  ∀ (a v : Word) (s : State),
    (memWrite a v s).mem.read a = v ∧ MemKeptBut [a] s (memWrite a v s) ∧
    (∀ b, b ≠ a → (memWrite a v s).mem.read b = s.mem.read b) ∧
    memWrite a v s = { s with mem := (memWrite a v s).mem }

/-- R57: the fetch is a MemRead at PC, and PC is then one more modulo 65536; a fetch from KBSR_ADDR polls. -/
def Obligations.FetchRule : Prop :=
  ∀ s : State,
    ReadEffect s.pc s (fetch s).1 (fetch s).2 ∧ (fetch s).2.pc.toNat = (s.pc.toNat + 1) % 65536 ∧
    RegsKept [] s (fetch s).2 ∧ (fetch s).2.cond = s.cond ∧ (fetch s).2.output = s.output ∧ ControlKept s (fetch s).2

/-- R58, R59: a step of a RUNNING block that is not held (log entry 10) and that the host does not abort is exec of the decoded word, on the
state the fetch leaves (and with one boundary passed, log entry 11). -/
def Obligations.StepRunsDecodedInstruction : Prop :=
  ∀ s : State, s.run = .running → s.hold = .free → s.abortIn ≠ some 0 →
    step s = exec (decode (memRead s.pc s).1)
      { (memRead s.pc s).2 with pc := s.pc + 1, abortIn := s.abortIn.map (· - 1) } ∧
    (s.pc ≠ 0xFE00 → step s = exec (decode (s.mem.read s.pc))
      { s with pc := s.pc + 1, abortIn := s.abortIn.map (· - 1) })

/-- 20_memory.md sections 3 and 7 (R37, R46, which the spec marks as its own inferences): a word stored by ST, STI or STR is
the one fetched by the very next fetch of its address (KBSR_ADDR apart, where the fetch polls); a value stored to KBDR is
what MemRead gives until a poll; a value stored to KBSR is seen by RawRead, and the next MemRead of KBSR_ADDR polls first. -/
def Obligations.StoresAreSeenByReads : Prop :=
  (∀ (sr baser : RegIdx) (off9 : BitVec 9) (off6 : BitVec 6) (s t : State), t.pc ≠ 0xFE00 →
    (exec (.st sr off9) s = .next t → t.pc = s.pc + off9.signExtend 16 → (fetch t).1 = s.readReg sr) ∧
    (exec (.sti sr off9) s = .next t → t.pc = (memRead (s.pc + off9.signExtend 16) s).1 → (fetch t).1 = s.readReg sr) ∧
    (exec (.str sr baser off6) s = .next t → t.pc = s.readReg baser + off6.signExtend 16 → (fetch t).1 = s.readReg sr)) ∧
  (∀ (v : Word) (s : State),
    (memRead 0xFE02 (memWrite 0xFE02 v s)).1 = v ∧ rawRead 0xFE00 (memWrite 0xFE00 v s) = v ∧
    (NoByteNext s → (memRead 0xFE00 (memWrite 0xFE00 v s)).1 = 0x0000) ∧
    (∀ b rest, s.console = some b :: rest → (memRead 0xFE00 (memWrite 0xFE00 v s)).1 = 0x8000))

/-- R28 and log entry 7: two canonical memories with the same words are the same data. -/
def Obligations.CanonicalMemoriesAreEqual : Prop :=
  ∀ m m' : Mem, m.wf → m'.wf → (∀ a : Word, m.read a = m'.read a) → m = m'

/-! ### Operate instructions -/

/-- R65: ADD, register form. -/
def Obligations.AddRegisterForm : Prop :=
  (∀ w : Word, w.extractLsb' 12 4 = 0x1 → w.getLsbD 5 = false →
    decode w = .addReg (w.extractLsb' 9 3) (w.extractLsb' 6 3) (w.extractLsb' 0 3)) ∧
  ∀ (dr sr1 sr2 : RegIdx) (s : State), ∃ t, exec (.addReg dr sr1 sr2) s = .next t ∧
    t.readReg dr = s.readReg sr1 + s.readReg sr2 ∧ t.cond = condOf (s.readReg sr1 + s.readReg sr2) ∧
    RegsKept [dr] s t ∧ t.pc = s.pc ∧ MemKept s t ∧ ConsoleKept s t ∧ ControlKept s t

/-- R66: ADD, immediate form. -/
def Obligations.AddImmediateForm : Prop :=
  (∀ w : Word, w.extractLsb' 12 4 = 0x1 → w.getLsbD 5 = true →
    decode w = .addImm (w.extractLsb' 9 3) (w.extractLsb' 6 3) (w.extractLsb' 0 5)) ∧
  ∀ (dr sr1 : RegIdx) (imm5 : BitVec 5) (s : State), ∃ t, exec (.addImm dr sr1 imm5) s = .next t ∧
    t.readReg dr = s.readReg sr1 + imm5.signExtend 16 ∧ t.cond = condOf (s.readReg sr1 + imm5.signExtend 16) ∧
    RegsKept [dr] s t ∧ t.pc = s.pc ∧ MemKept s t ∧ ConsoleKept s t ∧ ControlKept s t

/-- R67: AND, register form. -/
def Obligations.AndRegisterForm : Prop :=
  (∀ w : Word, w.extractLsb' 12 4 = 0x5 → w.getLsbD 5 = false →
    decode w = .andReg (w.extractLsb' 9 3) (w.extractLsb' 6 3) (w.extractLsb' 0 3)) ∧
  ∀ (dr sr1 sr2 : RegIdx) (s : State), ∃ t, exec (.andReg dr sr1 sr2) s = .next t ∧
    t.readReg dr = s.readReg sr1 &&& s.readReg sr2 ∧ t.cond = condOf (s.readReg sr1 &&& s.readReg sr2) ∧
    RegsKept [dr] s t ∧ t.pc = s.pc ∧ MemKept s t ∧ ConsoleKept s t ∧ ControlKept s t

/-- R68: AND, immediate form. -/
def Obligations.AndImmediateForm : Prop :=
  (∀ w : Word, w.extractLsb' 12 4 = 0x5 → w.getLsbD 5 = true →
    decode w = .andImm (w.extractLsb' 9 3) (w.extractLsb' 6 3) (w.extractLsb' 0 5)) ∧
  ∀ (dr sr1 : RegIdx) (imm5 : BitVec 5) (s : State), ∃ t, exec (.andImm dr sr1 imm5) s = .next t ∧
    t.readReg dr = s.readReg sr1 &&& imm5.signExtend 16 ∧ t.cond = condOf (s.readReg sr1 &&& imm5.signExtend 16) ∧
    RegsKept [dr] s t ∧ t.pc = s.pc ∧ MemKept s t ∧ ConsoleKept s t ∧ ControlKept s t

/-- R69: NOT. -/
def Obligations.NotComplements : Prop :=
  (∀ w : Word, w.extractLsb' 12 4 = 0x9 → decode w = .not (w.extractLsb' 9 3) (w.extractLsb' 6 3)) ∧
  ∀ (dr sr : RegIdx) (s : State), ∃ t, exec (.not dr sr) s = .next t ∧
    (t.readReg dr).toNat = 65535 - (s.readReg sr).toNat ∧ t.cond = condOf (t.readReg dr) ∧
    RegsKept [dr] s t ∧ t.pc = s.pc ∧ MemKept s t ∧ ConsoleKept s t ∧ ControlKept s t

/-! ### Control transfer -/

/-- R70, R71: BR is taken exactly when a requested flag is the one in COND, and writes PC only. -/
def Obligations.BranchOnCondition : Prop :=
  (∀ w : Word, w.extractLsb' 12 4 = 0x0 → decode w = .br (w.extractLsb' 9 3) (w.extractLsb' 0 9)) ∧
  ∀ (nzp : BitVec 3) (off9 : BitVec 9) (s : State), ∃ t, exec (.br nzp off9) s = .next t ∧
    (nzp &&& s.cond ≠ 0b000 → t.pc = s.pc + off9.signExtend 16) ∧ (nzp &&& s.cond = 0b000 → t.pc = s.pc) ∧
    (nzp = 0b000 ∨ s.cond = 0b000 → t.pc = s.pc) ∧
    t.cond = s.cond ∧ RegsKept [] s t ∧ MemKept s t ∧ ConsoleKept s t ∧ ControlKept s t

/-- R72: JMP, and RET as JMP R7 (0xC1C0). -/
def Obligations.JumpToBase : Prop :=
  (∀ w : Word, w.extractLsb' 12 4 = 0xC → decode w = .jmp (w.extractLsb' 6 3)) ∧ decode 0xC1C0 = .jmp 7 ∧
  ∀ (baser : RegIdx) (s : State), ∃ t, exec (.jmp baser) s = .next t ∧ t.pc = s.readReg baser ∧
    t.cond = s.cond ∧ RegsKept [] s t ∧ MemKept s t ∧ ConsoleKept s t ∧ ControlKept s t

/-- R73: JSR links through R7 and jumps PC-relative. -/
def Obligations.JumpSubroutine : Prop :=
  (∀ w : Word, w.extractLsb' 12 4 = 0x4 → w.getLsbD 11 = true → decode w = .jsr (w.extractLsb' 0 11)) ∧
  ∀ (off11 : BitVec 11) (s : State), ∃ t, exec (.jsr off11) s = .next t ∧
    t.readReg 7 = s.pc ∧ t.pc = s.pc + off11.signExtend 16 ∧
    t.cond = s.cond ∧ RegsKept [7] s t ∧ MemKept s t ∧ ConsoleKept s t ∧ ControlKept s t

/-- R74: JSRR writes R7 first and then reads the base, so JSRR R7 goes on at the next instruction. -/
def Obligations.JumpSubroutineRegister : Prop :=
  (∀ w : Word, w.extractLsb' 12 4 = 0x4 → w.getLsbD 11 = false → decode w = .jsrr (w.extractLsb' 6 3)) ∧
  ∀ (baser : RegIdx) (s : State), ∃ t, exec (.jsrr baser) s = .next t ∧ t.readReg 7 = s.pc ∧
    t.pc = (if baser = 7 then s.pc else s.readReg baser) ∧
    t.cond = s.cond ∧ RegsKept [7] s t ∧ MemKept s t ∧ ConsoleKept s t ∧ ControlKept s t

/-! ### Loads and stores -/

/-- R77: LD reads at PC + offset, polling where that is KBSR_ADDR. -/
def Obligations.LoadPcRelative : Prop :=
  (∀ w : Word, w.extractLsb' 12 4 = 0x2 → decode w = .ld (w.extractLsb' 9 3) (w.extractLsb' 0 9)) ∧
  ∀ (dr : RegIdx) (off9 : BitVec 9) (s : State), ∃ t v, exec (.ld dr off9) s = .next t ∧
    ReadEffect (s.pc + off9.signExtend 16) s v t ∧ t.readReg dr = v ∧ t.cond = condOf v ∧
    RegsKept [dr] s t ∧ t.pc = s.pc ∧ t.output = s.output ∧ ControlKept s t

/-- R78: LDI reads a pointer at PC + offset and then the word it points to; either read may poll. -/
def Obligations.LoadIndirect : Prop :=
  (∀ w : Word, w.extractLsb' 12 4 = 0xA → decode w = .ldi (w.extractLsb' 9 3) (w.extractLsb' 0 9)) ∧
  ∀ (dr : RegIdx) (off9 : BitVec 9) (s : State), ∃ t v ptr mid, exec (.ldi dr off9) s = .next t ∧
    ReadEffect (s.pc + off9.signExtend 16) s ptr mid ∧ ReadEffect ptr mid v t ∧ t.readReg dr = v ∧ t.cond = condOf v ∧
    RegsKept [dr] s t ∧ t.pc = s.pc ∧ t.output = s.output ∧ ControlKept s t

/-- R79: LDR reads at base + offset; the base is read before DR is written. -/
def Obligations.LoadBaseOffset : Prop :=
  (∀ w : Word, w.extractLsb' 12 4 = 0x6 →
    decode w = .ldr (w.extractLsb' 9 3) (w.extractLsb' 6 3) (w.extractLsb' 0 6)) ∧
  ∀ (dr baser : RegIdx) (off6 : BitVec 6) (s : State), ∃ t v, exec (.ldr dr baser off6) s = .next t ∧
    ReadEffect (s.readReg baser + off6.signExtend 16) s v t ∧ t.readReg dr = v ∧ t.cond = condOf v ∧
    RegsKept [dr] s t ∧ t.pc = s.pc ∧ t.output = s.output ∧ ControlKept s t

/-- R80: LEA writes the address and makes no memory access, so it never polls. -/
def Obligations.LoadEffectiveAddress : Prop :=
  (∀ w : Word, w.extractLsb' 12 4 = 0xE → decode w = .lea (w.extractLsb' 9 3) (w.extractLsb' 0 9)) ∧
  ∀ (dr : RegIdx) (off9 : BitVec 9) (s : State), ∃ t, exec (.lea dr off9) s = .next t ∧
    t.readReg dr = s.pc + off9.signExtend 16 ∧ t.cond = condOf (s.pc + off9.signExtend 16) ∧
    RegsKept [dr] s t ∧ t.pc = s.pc ∧ MemKept s t ∧ ConsoleKept s t ∧ ControlKept s t

/-- R81: ST stores at PC + offset, at KBSR_ADDR and KBDR_ADDR as anywhere. -/
def Obligations.StorePcRelative : Prop :=
  (∀ w : Word, w.extractLsb' 12 4 = 0x3 → decode w = .st (w.extractLsb' 9 3) (w.extractLsb' 0 9)) ∧
  ∀ (sr : RegIdx) (off9 : BitVec 9) (s : State), ∃ t, exec (.st sr off9) s = .next t ∧
    t.mem.read (pcRelative off9 s) = s.readReg sr ∧ pcRelative off9 s = s.pc + off9.signExtend 16 ∧
    MemKeptBut [pcRelative off9 s] s t ∧
    RegsKept [] s t ∧ t.cond = s.cond ∧ t.pc = s.pc ∧ ConsoleKept s t ∧ ControlKept s t

/-- R82: STI reads a pointer at PC + offset, which may poll, and stores where it points. -/
def Obligations.StoreIndirect : Prop :=
  (∀ w : Word, w.extractLsb' 12 4 = 0xB → decode w = .sti (w.extractLsb' 9 3) (w.extractLsb' 0 9)) ∧
  ∀ (sr : RegIdx) (off9 : BitVec 9) (s : State), ∃ t mid, exec (.sti sr off9) s = .next t ∧
    ReadEffect (s.pc + off9.signExtend 16) s (indirect off9 s).1 mid ∧
    t.mem.read (indirect off9 s).1 = s.readReg sr ∧ MemKeptBut [(indirect off9 s).1] mid t ∧ t.console = mid.console ∧
    RegsKept [] s t ∧ t.cond = s.cond ∧ t.pc = s.pc ∧ t.output = s.output ∧ ControlKept s t

/-- R83: STR stores at base + offset. -/
def Obligations.StoreBaseOffset : Prop :=
  (∀ w : Word, w.extractLsb' 12 4 = 0x7 →
    decode w = .str (w.extractLsb' 9 3) (w.extractLsb' 6 3) (w.extractLsb' 0 6)) ∧
  ∀ (sr baser : RegIdx) (off6 : BitVec 6) (s : State), ∃ t, exec (.str sr baser off6) s = .next t ∧
    t.mem.read (baseOffset baser off6 s) = s.readReg sr ∧
    baseOffset baser off6 s = s.readReg baser + off6.signExtend 16 ∧ MemKeptBut [baseOffset baser off6 s] s t ∧
    RegsKept [] s t ∧ t.cond = s.cond ∧ t.pc = s.pc ∧ ConsoleKept s t ∧ ControlKept s t

/-! ### TRAP -/

/-- R84, R87: GETC when the host supplies byte b: R7 and then R0, no echo. -/
def Obligations.TrapGetcReadsByte : Prop :=
  (∀ w : Word, w.extractLsb' 12 4 = 0xF → w.extractLsb' 0 8 = 0x20 → decode w = .trapGetc) ∧
  ∀ (s : State) (b : Byte) (rest : List (Option Byte)), s.console = some b :: rest →
    ∃ t, exec .trapGetc s = .next t ∧ t.readReg 7 = s.pc ∧ t.readReg 0 = b.setWidth 16 ∧ t.console = rest ∧
      t.output = s.output ∧ t.hold = .free ∧ t.run = s.run ∧ t.abortIn = s.abortIn ∧
      RegsKept [7, 0] s t ∧ t.pc = s.pc ∧ t.cond = s.cond ∧ MemKept s t

/-- R84, R88: OUT writes bits 7:0 of R0. -/
def Obligations.TrapOutWritesByte : Prop :=
  (∀ w : Word, w.extractLsb' 12 4 = 0xF → w.extractLsb' 0 8 = 0x21 → decode w = .trapOut) ∧
  ∀ s : State, ∃ t, exec .trapOut s = .next t ∧ t.readReg 7 = s.pc ∧
    t.output = s.output ++ [(s.readReg 0).extractLsb' 0 8] ∧ t.console = s.console ∧
    RegsKept [7] s t ∧ t.pc = s.pc ∧ t.cond = s.cond ∧ MemKept s t ∧ ControlKept s t

/-- R84, R89: PUTS writes bits 7:0 of each word from the one R0 points to, up to the first zero word or the end of memory,
and polls nowhere (TRAP_STRING_READ_POLLS at its default, log entry 13; the stop after 0xFFFF, log entry 14). -/
def Obligations.TrapPutsWritesString : Prop :=
  (∀ w : Word, w.extractLsb' 12 4 = 0xF → w.extractLsb' 0 8 = 0x22 → decode w = .trapPuts) ∧
  ∀ s : State, ∃ t n, exec .trapPuts s = .next t ∧ t.readReg 7 = s.pc ∧
    (s.readReg 0).toNat + n ≤ 65536 ∧
    (∀ j, j < n → s.mem.read (s.readReg 0 + BitVec.ofNat 16 j) ≠ 0x0000) ∧
    ((s.readReg 0).toNat + n = 65536 ∨ s.mem.read (s.readReg 0 + BitVec.ofNat 16 n) = 0x0000) ∧
    t.output = s.output ++
      (List.range n).map (fun j => (s.mem.read (s.readReg 0 + BitVec.ofNat 16 j)).extractLsb' 0 8) ∧
    t.console = s.console ∧ RegsKept [7] s t ∧ t.pc = s.pc ∧ t.cond = s.cond ∧ MemKept s t ∧ ControlKept s t

/-- R84, R90: IN when the host supplies byte b: the prompt, then the echo, then R0. -/
def Obligations.TrapInEchoesByte : Prop :=
  (∀ w : Word, w.extractLsb' 12 4 = 0xF → w.extractLsb' 0 8 = 0x23 → decode w = .trapIn) ∧
  ∀ (s : State) (b : Byte) (rest : List (Option Byte)), s.console = some b :: rest →
    ∃ t, exec .trapIn s = .next t ∧ t.readReg 7 = s.pc ∧ t.readReg 0 = b.setWidth 16 ∧ t.console = rest ∧
      t.output = s.output ++ Config.inPrompt ++ [b] ∧ t.hold = .free ∧ t.run = s.run ∧ t.abortIn = s.abortIn ∧
      RegsKept [7, 0] s t ∧ t.pc = s.pc ∧ t.cond = s.cond ∧ MemKept s t

/-- R84, R91: PUTSP writes, for each word up to the first zero word or the end of memory, bits 7:0 and then bits 15:8 if they
are not zero (log entries 13 and 14 as for PUTS). -/
def Obligations.TrapPutspWritesString : Prop :=
  (∀ w : Word, w.extractLsb' 12 4 = 0xF → w.extractLsb' 0 8 = 0x24 → decode w = .trapPutsp) ∧
  ∀ s : State, ∃ t n, exec .trapPutsp s = .next t ∧ t.readReg 7 = s.pc ∧
    (s.readReg 0).toNat + n ≤ 65536 ∧
    (∀ j, j < n → s.mem.read (s.readReg 0 + BitVec.ofNat 16 j) ≠ 0x0000) ∧
    ((s.readReg 0).toNat + n = 65536 ∨ s.mem.read (s.readReg 0 + BitVec.ofNat 16 n) = 0x0000) ∧
    t.output = s.output ++ (List.range n).flatMap (fun j =>
      let w := s.mem.read (s.readReg 0 + BitVec.ofNat 16 j)
      w.extractLsb' 0 8 :: if w.extractLsb' 8 8 = 0x00 then [] else [w.extractLsb' 8 8]) ∧
    t.console = s.console ∧ RegsKept [7] s t ∧ t.pc = s.pc ∧ t.cond = s.cond ∧ MemKept s t ∧ ControlKept s t

/-- R84, R92: HALT writes HALT_MSG and the run state becomes HALTED; PC keeps the address after it; every byte written is
then delivered. -/
def Obligations.TrapHaltEndsRun : Prop :=
  (∀ w : Word, w.extractLsb' 12 4 = 0xF → w.extractLsb' 0 8 = 0x25 → decode w = .trapHalt) ∧
  ∀ s : State, ∃ t, exec .trapHalt s = .next t ∧ t.readReg 7 = s.pc ∧ t.run = .halted ∧
    t.output = s.output ++ Config.haltMsg ∧ t.console = s.console ∧ t.hold = s.hold ∧ t.abortIn = s.abortIn ∧
    RegsKept [7] s t ∧ t.pc = s.pc ∧ t.cond = s.cond ∧ MemKept s t ∧ (∀ bs, Delivered t bs → bs = t.output)

/-- R84, R85, R98: a TRAP with a vector outside 0x20-0x25 writes R7 (before the fatal error: R84, D10, log entry 17) and then
is fatal, recording its whole word; every TRAP word does what the generic row does with its vector, and that is, at each
defined vector, what the vector's own row does. That a term of the generic row with a defined vector has that meaning is the
model's inference (log entry 24). -/
def Obligations.TrapVectorDispatch : Prop :=
  (∀ w : Word, w.extractLsb' 12 4 = 0xF → (w.toNat % 256 < 0x20 ∨ 0x25 < w.toNat % 256) →
    decode w = .trap (w.extractLsb' 8 4) (w.extractLsb' 0 8) ∧
    ∀ s, ∃ t, exec (decode w) s = .next t ∧ t.run = .fatal .unimplementedTrapVector w ∧ t.readReg 7 = s.pc ∧
      RegsKept [7] s t ∧ t.pc = s.pc ∧ t.cond = s.cond ∧ MemKept s t ∧ ConsoleKept s t ∧
      t.hold = s.hold ∧ t.abortIn = s.abortIn) ∧
  (∀ (w : Word) (s : State), w.extractLsb' 12 4 = 0xF →
    exec (decode w) s = exec (.trap (w.extractLsb' 8 4) (w.extractLsb' 0 8)) s) ∧
  (∀ (high : BitVec 4) (s : State),
    exec (.trap high 0x20) s = exec .trapGetc s ∧ exec (.trap high 0x21) s = exec .trapOut s ∧
    exec (.trap high 0x22) s = exec .trapPuts s ∧ exec (.trap high 0x23) s = exec .trapIn s ∧
    exec (.trap high 0x24) s = exec .trapPutsp s ∧ exec (.trap high 0x25) s = exec .trapHalt s)

/-- R94: a GETC or IN with no byte yet holds the block inside it, R7 written, IN's prompt written, R0 not written. -/
def Obligations.ConsoleReadHolds : Prop :=
  ∀ s : State, NoByteNext s →
    (∃ t, exec .trapGetc s = .next t ∧ t.hold = .getc ∧ t.run = s.run ∧ t.readReg 7 = s.pc ∧ t.output = s.output ∧
      t.console = s.console.tail ∧ t.abortIn = s.abortIn ∧
      RegsKept [7] s t ∧ t.pc = s.pc ∧ t.cond = s.cond ∧ MemKept s t) ∧
    (∃ t, exec .trapIn s = .next t ∧ t.hold = .inp ∧ t.run = s.run ∧ t.readReg 7 = s.pc ∧
      t.output = s.output ++ Config.inPrompt ∧ t.console = s.console.tail ∧ t.abortIn = s.abortIn ∧
      RegsKept [7] s t ∧ t.pc = s.pc ∧ t.cond = s.cond ∧ MemKept s t)

/-- R94: a held block stays as it is while no byte comes, and completes its routine when one does; it fetches nothing. -/
def Obligations.HeldStepWaitsOrCompletes : Prop :=
  ∀ s : State, s.run = .running → s.abortIn ≠ some 0 → s.hold ≠ .free →
    (NoByteNext s → step s = .next { s with console := s.console.tail, abortIn := s.abortIn.map (· - 1) }) ∧
    (∀ b rest, s.console = some b :: rest → ∃ t, step s = .next t ∧ t.hold = .free ∧ t.run = .running ∧
      t.readReg 0 = b.setWidth 16 ∧ t.console = rest ∧
      (s.hold = .getc → t.output = s.output) ∧ (s.hold = .inp → t.output = s.output ++ [b]) ∧
      RegsKept [0] s t ∧ t.pc = s.pc ∧ t.cond = s.cond ∧ MemKept s t ∧ t.abortIn = s.abortIn.map (· - 1))

/-! ### Reserved opcodes and the end of a run -/

/-- R95, R96: every RTI and RES word is fatal, records the word, and changes nothing else. -/
def Obligations.ReservedOpcodesAreFatal : Prop :=
  ∀ (w : Word) (s : State),
    (w.extractLsb' 12 4 = 0x8 → decode w = .rti (w.extractLsb' 0 12) ∧
      exec (.rti (w.extractLsb' 0 12)) s = .next { s with run := .fatal .unimplementedOpcode w }) ∧
    (w.extractLsb' 12 4 = 0xD → decode w = .res (w.extractLsb' 0 12) ∧
      exec (.res (w.extractLsb' 0 12)) s = .next { s with run := .fatal .unimplementedOpcode w })

/-- R97: the two causes have codes 1 and 2, and a step of a RUNNING block ends FATAL with a cause and word exactly when it
fetches, the word is the fetched one and raises that cause; PC is then its address + 1, and for an unknown vector R7 = PC. When
a step fetches is said in the model's terms: not held (log entry 10), no abort at hand (log entry 11). -/
def Obligations.FatalErrorsAreExactlyTwo : Prop :=
  FatalCause.code .unimplementedOpcode = 1 ∧ FatalCause.code .unimplementedTrapVector = 2 ∧
  ∀ (s t : State) (c : FatalCause) (x : Word), s.run = .running → step s = .next t →
    (t.run = .fatal c x ↔ s.hold = .free ∧ s.abortIn ≠ some 0 ∧ x = (memRead s.pc s).1 ∧
      ((c = .unimplementedOpcode ∧ (x.extractLsb' 12 4 = 0x8 ∨ x.extractLsb' 12 4 = 0xD)) ∨
       (c = .unimplementedTrapVector ∧ x.extractLsb' 12 4 = 0xF ∧ (x.toNat % 256 < 0x20 ∨ 0x25 < x.toNat % 256)))) ∧
    (t.run = .fatal c x → t.pc = s.pc + 1 ∧ (c = .unimplementedTrapVector → t.readReg 7 = t.pc))

/-- R92, R109: a step comes to HALTED only by fetching and executing a TRAP with vector 0x25. -/
def Obligations.OnlyHaltReachesHalted : Prop :=
  ∀ s t : State, step s = .next t → s.run ≠ .halted → t.run = .halted →
    s.run = .running ∧ s.hold = .free ∧
    (memRead s.pc s).1.extractLsb' 12 4 = 0xF ∧ (memRead s.pc s).1.extractLsb' 0 8 = 0x25

/-- R23, R109: nothing leaves HALTED, FATAL or ABORTED; a step changes nothing there (log entry 12). -/
def Obligations.TerminalStatesStay : Prop :=
  ∀ s : State, s.run ≠ .running → step s = .next s

/-- R110: an abort sets ABORTED and changes no register or memory word, between two instructions or during a hold; a step
comes to ABORTED in no other way (the countdown is the model's, log entry 11). -/
def Obligations.HostAbortOnly : Prop :=
  (∀ s : State, s.run = .running → s.abortIn = some 0 → step s = .next { s with run := .aborted }) ∧
  ∀ s t : State, step s = .next t → s.run ≠ .aborted → t.run = .aborted → s.run = .running ∧ s.abortIn = some 0

/-- 60_exceptions.md section 1, 20_memory.md section 2: no step is refused and none faults: whatever the state, there is a next
one. That a held block (log entry 10) and an ended one, where the spec has no step (log entry 12), answer a step are the
model's choices. -/
def Obligations.EveryStepAnswers : Prop :=
  ∀ s : State, ∃ t, step s = .next t

/-- R25, R86, the host's answers being a list (log entry 8): ConsolePoll and ConsoleRead take the next answer, a byte or no
byte; a step only appends to the output stream, and takes the answers in order from the front. -/
def Obligations.StreamsKeepTheirOrder : Prop :=
  (∀ (s : State) (b : Byte) (rest : List (Option Byte)), s.console = some b :: rest →
    consolePoll s = (some b, { s with console := rest }) ∧ consoleRead s = (some b, { s with console := rest })) ∧
  (∀ s : State, NoByteNext s → consolePoll s = (none, { s with console := s.console.tail }) ∧
    consoleRead s = (none, { s with console := s.console.tail })) ∧
  ∀ s t : State, step s = .next t → s.output <+: t.output ∧ t.console <:+ s.console

/-- R120 with R5, R98, R110: the exit code at the end of a run: 0 after HALT, a nonzero one after a fatal error, and after an
abort a nonzero one distinct from the load-failure code; none while RUNNING. -/
def Obligations.ExitCodes : Prop :=
  RunState.exitCode .halted = some 0 ∧ RunState.exitCode .running = none ∧
  (∀ c w, ∃ n, RunState.exitCode (.fatal c w) = some n ∧ n ≠ 0) ∧
  ∃ n, RunState.exitCode .aborted = some n ∧ n ≠ 0 ∧ n ≠ Config.loadFailureExitCode

/-! ### The invariant -/

/-- Every step keeps the invariant: canonical memory, legal COND, R7 = PC in a hold and at HALTED, a fatal end with a word of
its cause. From every state that meets it, not only those a run reaches. -/
def Obligations.StepKeepsInvariant : Prop :=
  ∀ s t : State, s.Inv → step s = .next t → t.Inv

/-- The invariant holds at reset. -/
def Obligations.ResetMeetsInvariant : Prop := State.reset.Inv

/-- The invariant holds after every startup, for both values of COND_RESET and every behaviour of the host. -/
def Obligations.StartupMeetsInvariant : Prop :=
  ∀ (policy : LoaderPolicy) (c : BitVec 3) (images : List (Option (List Byte))) (console : List (Option Byte))
    (abortIn : Option Nat) (s : State), (c = 0b000 ∨ c = 0b010) →
    boot policy c images console abortIn = .started s → s.Inv
end

