-- ==== Sys2Proof/Laws/Decode.lean ====
section
/-! SUPPORT. The bits of a field and of packed fields (R6, R51): what a proof about the encoding rests on. -/

namespace Sys2Proof

/-- Bit `i` of the field at `lo` is bit `lo + i` of the word (R51). -/
theorem field_getLsbD (w : Word) (lo len i : Nat) :
    (field w lo len).getLsbD i = (decide (i < len) && w.getLsbD (lo + i)) := by
  simp [field]

/-- The field is the word's slice `w[lo+len-1 : lo]` (R51). -/
theorem field_eq_slice (w : Word) (lo len : Nat) : field w lo len = w.extractLsb' lo len := by
  apply BitVec.eq_of_getLsbD_eq
  intro i hi
  simp [field, hi]

theorem pack_getLsbD {n : Nat} (v : BitVec n) (h : n = 16) (i : Nat) : (pack v h).getLsbD i = v.getLsbD i := by
  simp [pack]

/-- A field that lies wholly in the last of two packed parts. -/
theorem field_pack_right {a b : Nat} (x : BitVec a) (y : BitVec b) (h : a + b = 16) (lo len : Nat)
    (hlo : lo + len ≤ b) : field (pack (x ++ y) h) lo len = y.extractLsb' lo len := by
  apply BitVec.eq_of_getLsbD_eq
  intro i hi
  rw [field_getLsbD, pack_getLsbD, BitVec.getLsbD_append, BitVec.getLsbD_extractLsb', if_pos (by omega)]

/-- A field that lies wholly in the first of two packed parts. -/
theorem field_pack_left {a b : Nat} (x : BitVec a) (y : BitVec b) (h : a + b = 16) (lo len : Nat) (hlo : b ≤ lo) :
    field (pack (x ++ y) h) lo len = x.extractLsb' (lo - b) len := by
  apply BitVec.eq_of_getLsbD_eq
  intro i hi
  rw [field_getLsbD, pack_getLsbD, BitVec.getLsbD_append, BitVec.getLsbD_extractLsb', if_neg (by omega),
    show lo + i - b = lo - b + i by omega]

/-- A slice that lies wholly in the last of two appended parts. -/
theorem slice_append_right {a b : Nat} (x : BitVec a) (y : BitVec b) (lo len : Nat) (hlo : lo + len ≤ b) :
    (x ++ y).extractLsb' lo len = y.extractLsb' lo len := by
  apply BitVec.eq_of_getLsbD_eq
  intro i hi
  rw [BitVec.getLsbD_extractLsb', BitVec.getLsbD_append, BitVec.getLsbD_extractLsb', if_pos (by omega)]

/-- A slice that lies wholly in the first of two appended parts. -/
theorem slice_append_left {a b : Nat} (x : BitVec a) (y : BitVec b) (lo len : Nat) (hlo : b ≤ lo) :
    (x ++ y).extractLsb' lo len = x.extractLsb' (lo - b) len := by
  apply BitVec.eq_of_getLsbD_eq
  intro i hi
  rw [BitVec.getLsbD_extractLsb', BitVec.getLsbD_append, BitVec.getLsbD_extractLsb', if_neg (by omega),
    show lo + i - b = lo - b + i by omega]

/-- The slice of all bits. -/
theorem slice_all {a : Nat} (x : BitVec a) : x.extractLsb' 0 a = x := by
  apply BitVec.eq_of_getLsbD_eq
  intro i hi
  rw [BitVec.getLsbD_extractLsb', decide_eq_true hi, Bool.true_and, Nat.zero_add]

/-! ### The decoder's tests -/

theorem opcode_eq_slice (w : Word) : opcode w = w.extractLsb' 12 4 := field_eq_slice w 12 4

theorem trapvect8_eq_slice (w : Word) : trapvect8 w = w.extractLsb' 0 8 := field_eq_slice w 0 8

/-- A one-bit field is 1 exactly when its bit is set. -/
theorem field_one_beq (w : Word) (lo : Nat) : (field w lo 1 == 1) = w.getLsbD lo := by
  rw [Bool.eq_iff_iff, beq_iff_eq]
  constructor
  · intro h
    have := field_getLsbD w lo 1 0
    rw [h] at this
    simpa using this.symm
  · intro h
    apply BitVec.eq_of_getLsbD_eq
    intro i hi
    obtain rfl : i = 0 := by omega
    rw [field_getLsbD]
    simpa using h

theorem immSel_eq_bit (w : Word) : immSel w = w.getLsbD 5 := field_one_beq w 5

theorem jsrLong_eq_bit (w : Word) : jsrLong w = w.getLsbD 11 := field_one_beq w 11

/-- There are sixteen opcodes. -/
theorem opcode_cases : ∀ n : BitVec 4, n = 0x0 ∨ n = 0x1 ∨ n = 0x2 ∨ n = 0x3 ∨
    n = 0x4 ∨ n = 0x5 ∨ n = 0x6 ∨ n = 0x7 ∨ n = 0x8 ∨ n = 0x9 ∨ n = 0xA ∨ n = 0xB ∨ n = 0xC ∨ n = 0xD ∨ n = 0xE ∨
    n = 0xF := by
  decide

/-- The low byte of a word as a number. -/
theorem trapvect8_toNat (w : Word) : (trapvect8 w).toNat = w.toNat % 256 := by
  simp [trapvect8, field]

/-- The defined vectors as a range. -/
theorem definedVector_iff (v : BitVec 8) : definedVector v = true ↔ 0x20 ≤ v.toNat ∧ v.toNat ≤ 0x25 := by
  revert v
  decide

end Sys2Proof
end

