-- ==== Sys2Proof/Laws/Memory.lean ====
section
/-! SUPPORT. The laws of the storage array: a read after a write, the rest of memory, and the canonical form. The first
two hold of every cell list, canonical or not. -/

namespace Sys2Proof.Machine

/-! ### Bytes -/

theorem readByte_filter_same (m : Mem) (a : Nat) : Mem.readByte (m.filter (fun c => c.1 ≠ a)) a = 0 := by
  induction m with
  | nil => rfl
  | cons c rest ih =>
    by_cases h : c.1 = a
    · simpa [h] using ih
    · have h' : a ≠ c.1 := fun e => h e.symm
      simpa [h, Mem.readByte, h'] using ih

theorem readByte_filter_ne (m : Mem) {a k : Nat} (h : k ≠ a) :
    Mem.readByte (m.filter (fun c => c.1 ≠ a)) k = m.readByte k := by
  induction m with
  | nil => rfl
  | cons c rest ih =>
    by_cases hc : c.1 = a
    · have : k ≠ c.1 := fun e => h (e.trans hc)
      simpa [hc, Mem.readByte, h] using ih
    · by_cases hk : k = c.1
      · simp [hc, Mem.readByte, hk]
      · simpa [hc, Mem.readByte, hk] using ih

theorem readByte_insertCell_same (m : Mem) (a : Nat) (b : Byte) (h : ∀ c ∈ m, c.1 ≠ a) :
    (Mem.insertCell a b m).readByte a = b := by
  induction m with
  | nil => simp [Mem.insertCell, Mem.readByte]
  | cons c rest ih =>
    by_cases hlt : a < c.1
    · simp [Mem.insertCell, Mem.readByte, hlt]
    · have hne : a ≠ c.1 := fun e => h c (by simp) e.symm
      simpa [Mem.insertCell, Mem.readByte, hlt, hne] using ih fun d hd => h d (by simp [hd])

theorem readByte_insertCell_ne (m : Mem) {a k : Nat} (b : Byte) (h : k ≠ a) :
    (Mem.insertCell a b m).readByte k = m.readByte k := by
  induction m with
  | nil => simp [Mem.insertCell, Mem.readByte, h]
  | cons c rest ih =>
    by_cases hlt : a < c.1
    · simp [Mem.insertCell, Mem.readByte, hlt, h]
    · simp [Mem.insertCell, Mem.readByte, hlt, ih]

/-- A byte read after a write to the same key. -/
@[simp] theorem readByte_writeByte_same (m : Mem) (a : Nat) (b : Byte) : (m.writeByte a b).readByte a = b := by
  unfold Mem.writeByte
  split
  · next h => rw [readByte_filter_same, h]
  · exact readByte_insertCell_same _ a b (by simp)

/-- A write leaves every other key alone. -/
theorem readByte_writeByte_ne (m : Mem) {a k : Nat} (b : Byte) (h : k ≠ a) :
    (m.writeByte a b).readByte k = m.readByte k := by
  unfold Mem.writeByte
  split
  · exact readByte_filter_ne m h
  · rw [readByte_insertCell_ne _ b h, readByte_filter_ne m h]

/-! ### The canonical form -/

theorem mem_insertCell {m : Mem} {a : Nat} {b : Byte} {c : Host.Cell} :
    c ∈ Mem.insertCell a b m ↔ c = (a, b) ∨ c ∈ m := by
  induction m with
  | nil => simp [Mem.insertCell]
  | cons d rest ih =>
    by_cases hlt : a < d.1
    · simp [Mem.insertCell, hlt]
    · simp [Mem.insertCell, hlt, ih, or_left_comm]

theorem wf_nil : Mem.wf [] := ⟨.nil, by simp⟩

theorem wf_filter {m : Mem} (h : m.wf) (a : Nat) : Mem.wf (m.filter (fun c => c.1 ≠ a)) :=
  ⟨h.1.filter _, fun c hc => h.2 c (List.mem_of_mem_filter hc)⟩

theorem wf_insertCell {m : Mem} (h : m.wf) {a : Nat} {b : Byte} (ha : a < memKeys) (hb : b ≠ 0)
    (hne : ∀ c ∈ m, c.1 ≠ a) : (Mem.insertCell a b m).wf := by
  refine ⟨?_, fun c hc => ?_⟩
  · induction m with
    | nil => simp [Mem.insertCell]
    | cons d rest ih =>
      have hd := List.pairwise_cons.mp h.1
      by_cases hlt : a < d.1
      · simp only [Mem.insertCell, hlt, if_true]
        refine List.pairwise_cons.mpr ⟨fun c hc => ?_, h.1⟩
        rcases List.mem_cons.mp hc with rfl | hc
        · exact hlt
        · exact lt_trans hlt (hd.1 c hc)
      · simp only [Mem.insertCell, hlt, if_false]
        refine List.pairwise_cons.mpr ⟨fun c hc => ?_, ?_⟩
        · rcases mem_insertCell.mp hc with rfl | hc
          · exact lt_of_le_of_ne (not_lt.mp hlt) (hne d (by simp))
          · exact hd.1 c hc
        · exact ih ⟨hd.2, fun c hc => h.2 c (by simp [hc])⟩ fun c hc => hne c (by simp [hc])
  · rcases mem_insertCell.mp hc with rfl | hc
    · exact ⟨ha, hb⟩
    · exact h.2 c hc

/-- A byte write in range keeps the canonical form. -/
theorem wf_writeByte {m : Mem} (h : m.wf) {a : Nat} (ha : a < memKeys) (b : Byte) : (m.writeByte a b).wf := by
  unfold Mem.writeByte
  split
  · exact wf_filter h a
  · next hb => exact wf_insertCell (wf_filter h a) ha hb (by simp)

/-! ### Words -/

theorem firstKey_lt (a : Word) : firstKey a + 1 < memKeys := by
  have := a.isLt
  unfold firstKey memKeys
  omega

theorem firstKey_injective {a b : Word} (h : firstKey a = firstKey b) : a = b :=
  BitVec.eq_of_toNat_eq (by unfold firstKey at h; omega)

/-- The two keys of a word are no key of another word. -/
theorem firstKey_ne {a b : Word} (h : a ≠ b) :
    firstKey a ≠ firstKey b ∧ firstKey a ≠ firstKey b + 1 ∧ firstKey a + 1 ≠ firstKey b := by
  have hne : a.toNat ≠ b.toNat := fun e => h (BitVec.eq_of_toNat_eq e)
  unfold firstKey
  omega

/-- Putting a word's two bytes together gives the word. -/
@[simp] theorem wordOfBytes_bytes (v : Word) : wordOfBytes (firstByte v) (secondByte v) = v := by
  apply BitVec.eq_of_getLsbD_eq
  intro i hi
  rw [wordOfBytes, pack_getLsbD, BitVec.getLsbD_append]
  split
  · next h => rw [secondByte, field_getLsbD, decide_eq_true h, Bool.true_and, Nat.zero_add]
  · rw [firstByte, field_getLsbD, decide_eq_true (by omega), Bool.true_and, show 8 + (i - 8) = i by omega]

@[simp] theorem firstByte_wordOfBytes (b0 b1 : Byte) : firstByte (wordOfBytes b0 b1) = b0 :=
  (field_pack_left b0 b1 rfl 8 8 le_rfl).trans (slice_all b0)

@[simp] theorem secondByte_wordOfBytes (b0 b1 : Byte) : secondByte (wordOfBytes b0 b1) = b1 :=
  (field_pack_right b0 b1 rfl 0 8 le_rfl).trans (slice_all b1)

/-- A word read after a write to the same address (R44). -/
@[simp] theorem read_write_same (m : Mem) (a v : Word) : (m.write a v).read a = v := by
  unfold Mem.read Mem.write
  rw [readByte_writeByte_same, readByte_writeByte_ne _ _ (by omega), readByte_writeByte_same, wordOfBytes_bytes]

/-- A write leaves every byte outside its word alone. -/
theorem readByte_write_ne (m : Mem) {a v : Word} {k : Nat} (h0 : k ≠ firstKey a) (h1 : k ≠ firstKey a + 1) :
    (m.write a v).readByte k = m.readByte k := by
  unfold Mem.write
  rw [readByte_writeByte_ne _ _ h1, readByte_writeByte_ne _ _ h0]

/-- A write leaves every other word alone. -/
theorem read_write_ne (m : Mem) {a b : Word} (v : Word) (h : b ≠ a) : (m.write a v).read b = m.read b := by
  obtain ⟨h0, h1, h2⟩ := firstKey_ne h
  unfold Mem.read
  rw [readByte_write_ne m h0 h1, readByte_write_ne m h2 (by omega)]

/-- A word write keeps the canonical form. -/
theorem wf_write {m : Mem} (h : m.wf) (a v : Word) : (m.write a v).wf :=
  wf_writeByte (wf_writeByte h (lt_trans (Nat.lt_succ_self _) (firstKey_lt a)) _) (firstKey_lt a) _

/-- Writing words in a row keeps the canonical form. -/
theorem wf_writeWords {m : Mem} (h : m.wf) (a : Word) (ws : List Word) : (m.writeWords a ws).wf := by
  induction ws generalizing m a with
  | nil => exact h
  | cons w ws ih => exact ih (wf_write h a w) (a + 1)

@[simp] theorem read_nil (a : Word) : Mem.read [] a = 0 := by
  rw [Mem.read, Mem.readByte, Mem.readByte]
  decide

end Sys2Proof.Machine
end

