-- ==== Sys2Proof/Laws/State.lean ====
section
/-! SUPPORT. What each update of the state does to each field, and to each register; all but the last section by rfl. -/

namespace Sys2Proof.Machine

/-! ### writeReg -/

@[simp] theorem writeReg_regs (s : State) (i : RegIdx) (v : Word) : (s.writeReg i v).regs = s.regs.set i.toNat v (by have := i.isLt; omega) := rfl
@[simp] theorem writeReg_pc (s : State) (i : RegIdx) (v : Word) : (s.writeReg i v).pc = s.pc := rfl
@[simp] theorem writeReg_cond (s : State) (i : RegIdx) (v : Word) : (s.writeReg i v).cond = s.cond := rfl
@[simp] theorem writeReg_mem (s : State) (i : RegIdx) (v : Word) : (s.writeReg i v).mem = s.mem := rfl
@[simp] theorem writeReg_run (s : State) (i : RegIdx) (v : Word) : (s.writeReg i v).run = s.run := rfl
@[simp] theorem writeReg_hold (s : State) (i : RegIdx) (v : Word) : (s.writeReg i v).hold = s.hold := rfl
@[simp] theorem writeReg_output (s : State) (i : RegIdx) (v : Word) : (s.writeReg i v).output = s.output := rfl
@[simp] theorem writeReg_console (s : State) (i : RegIdx) (v : Word) : (s.writeReg i v).console = s.console := rfl
@[simp] theorem writeReg_abortIn (s : State) (i : RegIdx) (v : Word) : (s.writeReg i v).abortIn = s.abortIn := rfl

/-! ### setPc -/

@[simp] theorem setPc_regs (s : State) (v : Word) : (s.setPc v).regs = s.regs := rfl
@[simp] theorem setPc_pc (s : State) (v : Word) : (s.setPc v).pc = v := rfl
@[simp] theorem setPc_cond (s : State) (v : Word) : (s.setPc v).cond = s.cond := rfl
@[simp] theorem setPc_mem (s : State) (v : Word) : (s.setPc v).mem = s.mem := rfl
@[simp] theorem setPc_run (s : State) (v : Word) : (s.setPc v).run = s.run := rfl
@[simp] theorem setPc_hold (s : State) (v : Word) : (s.setPc v).hold = s.hold := rfl
@[simp] theorem setPc_output (s : State) (v : Word) : (s.setPc v).output = s.output := rfl
@[simp] theorem setPc_console (s : State) (v : Word) : (s.setPc v).console = s.console := rfl
@[simp] theorem setPc_abortIn (s : State) (v : Word) : (s.setPc v).abortIn = s.abortIn := rfl

/-! ### setcc -/

@[simp] theorem setcc_regs (s : State) (v : Word) : (s.setcc v).regs = s.regs := rfl
@[simp] theorem setcc_pc (s : State) (v : Word) : (s.setcc v).pc = s.pc := rfl
@[simp] theorem setcc_cond (s : State) (v : Word) : (s.setcc v).cond = condOf v := rfl
@[simp] theorem setcc_mem (s : State) (v : Word) : (s.setcc v).mem = s.mem := rfl
@[simp] theorem setcc_run (s : State) (v : Word) : (s.setcc v).run = s.run := rfl
@[simp] theorem setcc_hold (s : State) (v : Word) : (s.setcc v).hold = s.hold := rfl
@[simp] theorem setcc_output (s : State) (v : Word) : (s.setcc v).output = s.output := rfl
@[simp] theorem setcc_console (s : State) (v : Word) : (s.setcc v).console = s.console := rfl
@[simp] theorem setcc_abortIn (s : State) (v : Word) : (s.setcc v).abortIn = s.abortIn := rfl

/-! ### writeResult -/

@[simp] theorem writeResult_regs (s : State) (i : RegIdx) (v : Word) : (s.writeResult i v).regs = (s.writeReg i v).regs := rfl
@[simp] theorem writeResult_pc (s : State) (i : RegIdx) (v : Word) : (s.writeResult i v).pc = s.pc := rfl
@[simp] theorem writeResult_cond (s : State) (i : RegIdx) (v : Word) : (s.writeResult i v).cond = condOf v := rfl
@[simp] theorem writeResult_mem (s : State) (i : RegIdx) (v : Word) : (s.writeResult i v).mem = s.mem := rfl
@[simp] theorem writeResult_run (s : State) (i : RegIdx) (v : Word) : (s.writeResult i v).run = s.run := rfl
@[simp] theorem writeResult_hold (s : State) (i : RegIdx) (v : Word) : (s.writeResult i v).hold = s.hold := rfl
@[simp] theorem writeResult_output (s : State) (i : RegIdx) (v : Word) : (s.writeResult i v).output = s.output := rfl
@[simp] theorem writeResult_console (s : State) (i : RegIdx) (v : Word) : (s.writeResult i v).console = s.console := rfl
@[simp] theorem writeResult_abortIn (s : State) (i : RegIdx) (v : Word) : (s.writeResult i v).abortIn = s.abortIn := rfl

/-! ### consoleWrite -/

@[simp] theorem consoleWrite_regs (s : State) (b : Byte) : (s.consoleWrite b).regs = s.regs := rfl
@[simp] theorem consoleWrite_pc (s : State) (b : Byte) : (s.consoleWrite b).pc = s.pc := rfl
@[simp] theorem consoleWrite_cond (s : State) (b : Byte) : (s.consoleWrite b).cond = s.cond := rfl
@[simp] theorem consoleWrite_mem (s : State) (b : Byte) : (s.consoleWrite b).mem = s.mem := rfl
@[simp] theorem consoleWrite_run (s : State) (b : Byte) : (s.consoleWrite b).run = s.run := rfl
@[simp] theorem consoleWrite_hold (s : State) (b : Byte) : (s.consoleWrite b).hold = s.hold := rfl
@[simp] theorem consoleWrite_output (s : State) (b : Byte) : (s.consoleWrite b).output = s.output ++ [b] := rfl
@[simp] theorem consoleWrite_console (s : State) (b : Byte) : (s.consoleWrite b).console = s.console := rfl
@[simp] theorem consoleWrite_abortIn (s : State) (b : Byte) : (s.consoleWrite b).abortIn = s.abortIn := rfl

/-! ### consoleWriteAll -/

@[simp] theorem consoleWriteAll_regs (s : State) (bs : List Byte) : (s.consoleWriteAll bs).regs = s.regs := rfl
@[simp] theorem consoleWriteAll_pc (s : State) (bs : List Byte) : (s.consoleWriteAll bs).pc = s.pc := rfl
@[simp] theorem consoleWriteAll_cond (s : State) (bs : List Byte) : (s.consoleWriteAll bs).cond = s.cond := rfl
@[simp] theorem consoleWriteAll_mem (s : State) (bs : List Byte) : (s.consoleWriteAll bs).mem = s.mem := rfl
@[simp] theorem consoleWriteAll_run (s : State) (bs : List Byte) : (s.consoleWriteAll bs).run = s.run := rfl
@[simp] theorem consoleWriteAll_hold (s : State) (bs : List Byte) : (s.consoleWriteAll bs).hold = s.hold := rfl
@[simp] theorem consoleWriteAll_output (s : State) (bs : List Byte) : (s.consoleWriteAll bs).output = s.output ++ bs := rfl
@[simp] theorem consoleWriteAll_console (s : State) (bs : List Byte) : (s.consoleWriteAll bs).console = s.console := rfl
@[simp] theorem consoleWriteAll_abortIn (s : State) (bs : List Byte) : (s.consoleWriteAll bs).abortIn = s.abortIn := rfl

/-! ### memWrite -/

@[simp] theorem memWrite_regs (s : State) (a v : Word) : (memWrite a v s).regs = s.regs := rfl
@[simp] theorem memWrite_pc (s : State) (a v : Word) : (memWrite a v s).pc = s.pc := rfl
@[simp] theorem memWrite_cond (s : State) (a v : Word) : (memWrite a v s).cond = s.cond := rfl
@[simp] theorem memWrite_mem (s : State) (a v : Word) : (memWrite a v s).mem = s.mem.write a v := rfl
@[simp] theorem memWrite_run (s : State) (a v : Word) : (memWrite a v s).run = s.run := rfl
@[simp] theorem memWrite_hold (s : State) (a v : Word) : (memWrite a v s).hold = s.hold := rfl
@[simp] theorem memWrite_output (s : State) (a v : Word) : (memWrite a v s).output = s.output := rfl
@[simp] theorem memWrite_console (s : State) (a v : Word) : (memWrite a v s).console = s.console := rfl
@[simp] theorem memWrite_abortIn (s : State) (a v : Word) : (memWrite a v s).abortIn = s.abortIn := rfl

/-! ### trapEntry -/

@[simp] theorem trapEntry_regs (s : State) : (trapEntry s).regs = (s.writeReg 7 s.pc).regs := rfl
@[simp] theorem trapEntry_pc (s : State) : (trapEntry s).pc = s.pc := rfl
@[simp] theorem trapEntry_cond (s : State) : (trapEntry s).cond = s.cond := rfl
@[simp] theorem trapEntry_mem (s : State) : (trapEntry s).mem = s.mem := rfl
@[simp] theorem trapEntry_run (s : State) : (trapEntry s).run = s.run := rfl
@[simp] theorem trapEntry_hold (s : State) : (trapEntry s).hold = s.hold := rfl
@[simp] theorem trapEntry_output (s : State) : (trapEntry s).output = s.output := rfl
@[simp] theorem trapEntry_console (s : State) : (trapEntry s).console = s.console := rfl
@[simp] theorem trapEntry_abortIn (s : State) : (trapEntry s).abortIn = s.abortIn := rfl

/-! ### linkR7 -/

@[simp] theorem linkR7_regs (s : State) : (linkR7 s).regs = (s.writeReg 7 s.pc).regs := rfl
@[simp] theorem linkR7_pc (s : State) : (linkR7 s).pc = s.pc := rfl
@[simp] theorem linkR7_cond (s : State) : (linkR7 s).cond = s.cond := rfl
@[simp] theorem linkR7_mem (s : State) : (linkR7 s).mem = s.mem := rfl
@[simp] theorem linkR7_run (s : State) : (linkR7 s).run = s.run := rfl
@[simp] theorem linkR7_hold (s : State) : (linkR7 s).hold = s.hold := rfl
@[simp] theorem linkR7_output (s : State) : (linkR7 s).output = s.output := rfl
@[simp] theorem linkR7_console (s : State) : (linkR7 s).console = s.console := rfl
@[simp] theorem linkR7_abortIn (s : State) : (linkR7 s).abortIn = s.abortIn := rfl

/-! ### raiseFatal -/

@[simp] theorem raiseFatal_regs (s : State) (c : FatalCause) (w : Word) : (raiseFatal c w s).regs = s.regs := rfl
@[simp] theorem raiseFatal_pc (s : State) (c : FatalCause) (w : Word) : (raiseFatal c w s).pc = s.pc := rfl
@[simp] theorem raiseFatal_cond (s : State) (c : FatalCause) (w : Word) : (raiseFatal c w s).cond = s.cond := rfl
@[simp] theorem raiseFatal_mem (s : State) (c : FatalCause) (w : Word) : (raiseFatal c w s).mem = s.mem := rfl
@[simp] theorem raiseFatal_run (s : State) (c : FatalCause) (w : Word) : (raiseFatal c w s).run = .fatal c w := rfl
@[simp] theorem raiseFatal_hold (s : State) (c : FatalCause) (w : Word) : (raiseFatal c w s).hold = s.hold := rfl
@[simp] theorem raiseFatal_output (s : State) (c : FatalCause) (w : Word) : (raiseFatal c w s).output = s.output := rfl
@[simp] theorem raiseFatal_console (s : State) (c : FatalCause) (w : Word) : (raiseFatal c w s).console = s.console := rfl
@[simp] theorem raiseFatal_abortIn (s : State) (c : FatalCause) (w : Word) : (raiseFatal c w s).abortIn = s.abortIn := rfl

/-! ### haltRun -/

@[simp] theorem haltRun_regs (s : State) : (s.haltRun).regs = s.regs := rfl
@[simp] theorem haltRun_pc (s : State) : (s.haltRun).pc = s.pc := rfl
@[simp] theorem haltRun_cond (s : State) : (s.haltRun).cond = s.cond := rfl
@[simp] theorem haltRun_mem (s : State) : (s.haltRun).mem = s.mem := rfl
@[simp] theorem haltRun_run (s : State) : (s.haltRun).run = .halted := rfl
@[simp] theorem haltRun_hold (s : State) : (s.haltRun).hold = s.hold := rfl
@[simp] theorem haltRun_output (s : State) : (s.haltRun).output = s.output := rfl
@[simp] theorem haltRun_console (s : State) : (s.haltRun).console = s.console := rfl
@[simp] theorem haltRun_abortIn (s : State) : (s.haltRun).abortIn = s.abortIn := rfl

/-! ### hostAbort -/

@[simp] theorem hostAbort_regs (s : State) : (s.hostAbort).regs = s.regs := rfl
@[simp] theorem hostAbort_pc (s : State) : (s.hostAbort).pc = s.pc := rfl
@[simp] theorem hostAbort_cond (s : State) : (s.hostAbort).cond = s.cond := rfl
@[simp] theorem hostAbort_mem (s : State) : (s.hostAbort).mem = s.mem := rfl
@[simp] theorem hostAbort_run (s : State) : (s.hostAbort).run = .aborted := rfl
@[simp] theorem hostAbort_hold (s : State) : (s.hostAbort).hold = s.hold := rfl
@[simp] theorem hostAbort_output (s : State) : (s.hostAbort).output = s.output := rfl
@[simp] theorem hostAbort_console (s : State) : (s.hostAbort).console = s.console := rfl
@[simp] theorem hostAbort_abortIn (s : State) : (s.hostAbort).abortIn = s.abortIn := rfl

/-! ### passBoundary -/

@[simp] theorem passBoundary_regs (s : State) : (passBoundary s).regs = s.regs := rfl
@[simp] theorem passBoundary_pc (s : State) : (passBoundary s).pc = s.pc := rfl
@[simp] theorem passBoundary_cond (s : State) : (passBoundary s).cond = s.cond := rfl
@[simp] theorem passBoundary_mem (s : State) : (passBoundary s).mem = s.mem := rfl
@[simp] theorem passBoundary_run (s : State) : (passBoundary s).run = s.run := rfl
@[simp] theorem passBoundary_hold (s : State) : (passBoundary s).hold = s.hold := rfl
@[simp] theorem passBoundary_output (s : State) : (passBoundary s).output = s.output := rfl
@[simp] theorem passBoundary_console (s : State) : (passBoundary s).console = s.console := rfl
@[simp] theorem passBoundary_abortIn (s : State) : (passBoundary s).abortIn = s.abortIn.map (· - 1) := rfl

/-! ### placeAtPc -/

@[simp] theorem placeAtPc_regs (s : State) (w : Word) : (placeAtPc s w).regs = s.regs := rfl
@[simp] theorem placeAtPc_pc (s : State) (w : Word) : (placeAtPc s w).pc = s.pc := rfl
@[simp] theorem placeAtPc_cond (s : State) (w : Word) : (placeAtPc s w).cond = s.cond := rfl
@[simp] theorem placeAtPc_mem (s : State) (w : Word) : (placeAtPc s w).mem = s.mem.write s.pc w := rfl
@[simp] theorem placeAtPc_run (s : State) (w : Word) : (placeAtPc s w).run = .running := rfl
@[simp] theorem placeAtPc_hold (s : State) (w : Word) : (placeAtPc s w).hold = .free := rfl
@[simp] theorem placeAtPc_output (s : State) (w : Word) : (placeAtPc s w).output = s.output := rfl
@[simp] theorem placeAtPc_console (s : State) (w : Word) : (placeAtPc s w).console = s.console := rfl
@[simp] theorem placeAtPc_abortIn (s : State) (w : Word) : (placeAtPc s w).abortIn = none := rfl

/-! ### Reads of a register -/

@[simp] theorem readReg_writeReg_same (s : State) (i : RegIdx) (v : Word) : (s.writeReg i v).readReg i = v := by
  simp [State.readReg]

theorem readReg_writeReg_ne (s : State) {i j : RegIdx} (v : Word) (h : j ≠ i) :
    (s.writeReg i v).readReg j = s.readReg j := by
  have hne : i.toNat ≠ j.toNat := fun e => h (BitVec.eq_of_toNat_eq e.symm)
  simp [State.readReg, Vector.getElem_set_ne, hne]

/-- A read of a register sees only the register file. -/
theorem readReg_congr {s t : State} (h : t.regs = s.regs) (i : RegIdx) : t.readReg i = s.readReg i := by
  simp [State.readReg, h]

@[simp] theorem readReg_setPc (s : State) (v : Word) (j : RegIdx) : (s.setPc v).readReg j = s.readReg j := rfl
@[simp] theorem readReg_setcc (s : State) (v : Word) (j : RegIdx) : (s.setcc v).readReg j = s.readReg j := rfl
@[simp] theorem readReg_writeResult (s : State) (i : RegIdx) (v : Word) (j : RegIdx) : (s.writeResult i v).readReg j = (s.writeReg i v).readReg j := rfl
@[simp] theorem readReg_consoleWrite (s : State) (b : Byte) (j : RegIdx) : (s.consoleWrite b).readReg j = s.readReg j := rfl
@[simp] theorem readReg_consoleWriteAll (s : State) (bs : List Byte) (j : RegIdx) : (s.consoleWriteAll bs).readReg j = s.readReg j := rfl
@[simp] theorem readReg_memWrite (s : State) (a v : Word) (j : RegIdx) : (memWrite a v s).readReg j = s.readReg j := rfl
@[simp] theorem readReg_trapEntry (s : State) (j : RegIdx) : (trapEntry s).readReg j = (s.writeReg 7 s.pc).readReg j := rfl
@[simp] theorem readReg_linkR7 (s : State) (j : RegIdx) : (linkR7 s).readReg j = (s.writeReg 7 s.pc).readReg j := rfl
@[simp] theorem readReg_raiseFatal (s : State) (c : FatalCause) (w : Word) (j : RegIdx) : (raiseFatal c w s).readReg j = s.readReg j := rfl
@[simp] theorem readReg_haltRun (s : State) (j : RegIdx) : (s.haltRun).readReg j = s.readReg j := rfl
@[simp] theorem readReg_hostAbort (s : State) (j : RegIdx) : (s.hostAbort).readReg j = s.readReg j := rfl
@[simp] theorem readReg_passBoundary (s : State) (j : RegIdx) : (passBoundary s).readReg j = s.readReg j := rfl
@[simp] theorem readReg_placeAtPc (s : State) (w : Word) (j : RegIdx) : (placeAtPc s w).readReg j = s.readReg j := rfl

end Sys2Proof.Machine
end

