-- ==== Sys2Proof/Laws/Ops.lean ====
section
/-! SUPPORT. One lemma for each shared operation, saying everything it can do; later proofs cite it and do not unfold. -/

namespace Sys2Proof.Machine

/-! ### Console -/

/-- The host's next answer: a byte taken from the console, or no byte (an answer taken, or none left). -/
theorem nextAnswer_cases (s : State) :
    (∃ b rest, s.console = some b :: rest ∧ nextAnswer s = (some b, { s with console := rest })) ∨
    ((∀ b rest, s.console ≠ some b :: rest) ∧ nextAnswer s = (none, { s with console := s.console.tail })) := by
  rcases s with ⟨_, _, _, _, _, _, _, console, _⟩
  rcases console with _ | ⟨_ | b, rest⟩
  · exact .inr ⟨by simp, rfl⟩
  · exact .inr ⟨by simp, rfl⟩
  · exact .inl ⟨b, rest, rfl, rfl⟩

/-! ### Memory ports -/

theorem kbsr_ne_kbdr : Config.kbsrAddr ≠ Config.kbdrAddr := by decide

/-- A read of any address but KBSR_ADDR gives the stored word and changes nothing (R31). -/
theorem memRead_of_ne {a : Word} (h : a ≠ Config.kbsrAddr) (s : State) : memRead a s = (s.mem.read a, s) := by
  simp [memRead, h, rawRead]

/-- A read of KBSR_ADDR when the host answers with a byte (R34). -/
theorem memRead_kbsr_byte {s : State} {b : Byte} {rest : List (Option Byte)} (h : s.console = some b :: rest) :
    memRead Config.kbsrAddr s = (0x8000, { s with
      console := rest
      mem := (s.mem.write Config.kbsrAddr 0x8000).write Config.kbdrAddr (zext b) }) := by
  have hp : kbsrPoll s = { s with
      console := rest
      mem := (s.mem.write Config.kbsrAddr 0x8000).write Config.kbdrAddr (zext b) } := by
    simp [kbsrPoll, consolePoll, nextAnswer, h, memWrite]
  rw [memRead, if_pos rfl, hp, rawRead, read_write_ne _ _ kbsr_ne_kbdr, read_write_same]

/-- A read of KBSR_ADDR when the host answers with no byte (R34): KBDR keeps its value. -/
theorem memRead_kbsr_none {s : State} (h : ∀ b rest, s.console ≠ some b :: rest) :
    memRead Config.kbsrAddr s = (0x0000, { s with
      console := s.console.tail
      mem := s.mem.write Config.kbsrAddr 0x0000 }) := by
  have hp : kbsrPoll s = { s with
      console := s.console.tail
      mem := s.mem.write Config.kbsrAddr 0x0000 } := by
    rcases nextAnswer_cases s with ⟨b, rest, hc, _⟩ | ⟨_, hn⟩
    · exact absurd hc (h b rest)
    · simp [kbsrPoll, consolePoll, hn, memWrite]
  rw [memRead, if_pos rfl, hp, rawRead, read_write_same]

/-- Everything a memory read can do (R31, R34). -/
theorem memRead_cases (a : Word) (s : State) :
    (a ≠ Config.kbsrAddr ∧ memRead a s = (s.mem.read a, s)) ∨
    (a = Config.kbsrAddr ∧ ∃ b rest, s.console = some b :: rest ∧
      memRead a s = (0x8000, { s with
        console := rest
        mem := (s.mem.write Config.kbsrAddr 0x8000).write Config.kbdrAddr (zext b) })) ∨
    (a = Config.kbsrAddr ∧ (∀ b rest, s.console ≠ some b :: rest) ∧
      memRead a s = (0x0000, { s with
        console := s.console.tail
        mem := s.mem.write Config.kbsrAddr 0x0000 })) := by
  by_cases ha : a = Config.kbsrAddr
  · subst ha
    rcases nextAnswer_cases s with ⟨b, rest, hc, _⟩ | ⟨hn, _⟩
    · exact .inr (.inl ⟨rfl, b, rest, hc, memRead_kbsr_byte hc⟩)
    · exact .inr (.inr ⟨rfl, hn, memRead_kbsr_none hn⟩)
  · exact .inl ⟨ha, memRead_of_ne ha s⟩

/-- What a memory read leaves alone: all but the console's answers and the two device words. -/
theorem memRead_frame (a : Word) (s : State) :
    (memRead a s).2 = { s with console := (memRead a s).2.console, mem := (memRead a s).2.mem } := by
  rcases memRead_cases a s with ⟨_, h⟩ | ⟨_, _, _, _, h⟩ | ⟨_, _, h⟩ <;> rw [h]

@[simp] theorem memRead_regs (a : Word) (s : State) : (memRead a s).2.regs = s.regs := by rw [memRead_frame]
@[simp] theorem memRead_pc (a : Word) (s : State) : (memRead a s).2.pc = s.pc := by rw [memRead_frame]
@[simp] theorem memRead_cond (a : Word) (s : State) : (memRead a s).2.cond = s.cond := by rw [memRead_frame]
@[simp] theorem memRead_run (a : Word) (s : State) : (memRead a s).2.run = s.run := by rw [memRead_frame]
@[simp] theorem memRead_hold (a : Word) (s : State) : (memRead a s).2.hold = s.hold := by rw [memRead_frame]
@[simp] theorem memRead_output (a : Word) (s : State) : (memRead a s).2.output = s.output := by rw [memRead_frame]
@[simp] theorem memRead_abortIn (a : Word) (s : State) : (memRead a s).2.abortIn = s.abortIn := by rw [memRead_frame]
@[simp] theorem readReg_memRead (a : Word) (s : State) (j : RegIdx) : (memRead a s).2.readReg j = s.readReg j :=
  readReg_congr (memRead_regs a s) j

/-- A memory read changes no byte outside the two device words. -/
theorem readByte_memRead (a : Word) (s : State) {k : Nat}
    (h0 : k ≠ firstKey Config.kbsrAddr) (h1 : k ≠ firstKey Config.kbsrAddr + 1)
    (h2 : k ≠ firstKey Config.kbdrAddr) (h3 : k ≠ firstKey Config.kbdrAddr + 1) :
    (memRead a s).2.mem.readByte k = s.mem.readByte k := by
  rcases memRead_cases a s with ⟨_, h⟩ | ⟨_, _, _, _, h⟩ | ⟨_, _, h⟩ <;> rw [h]
  · exact (readByte_write_ne _ h2 h3).trans (readByte_write_ne _ h0 h1)
  · exact readByte_write_ne s.mem (v := 0x0000) h0 h1

/-- A memory read keeps the canonical form. -/
theorem memRead_wf {s : State} (h : s.mem.wf) (a : Word) : (memRead a s).2.mem.wf := by
  rcases memRead_cases a s with ⟨_, e⟩ | ⟨_, _, _, _, e⟩ | ⟨_, _, e⟩ <;> rw [e]
  · exact h
  · exact wf_write (wf_write h Config.kbsrAddr 0x8000) Config.kbdrAddr _
  · exact wf_write h Config.kbsrAddr 0x0000

/-- A memory read takes at most one of the host's answers. -/
theorem memRead_console (a : Word) (s : State) :
    (memRead a s).2.console = s.console ∨ (memRead a s).2.console = s.console.tail := by
  rcases memRead_cases a s with ⟨_, e⟩ | ⟨_, _, _, hc, e⟩ | ⟨_, _, e⟩ <;> rw [e]
  · exact .inl rfl
  · exact .inr (by simp [hc])
  · exact .inr rfl

/-- A memory read does not see the host's abort, nor COND. -/
theorem memRead_with_abortIn (a : Word) (s : State) (x : Option Nat) :
    memRead a { s with abortIn := x } = ((memRead a s).1, { (memRead a s).2 with abortIn := x }) := by
  rcases memRead_cases a s with ⟨h, e⟩ | ⟨rfl, b, rest, h, e⟩ | ⟨rfl, h, e⟩ <;> rw [e]
  · exact memRead_of_ne h _
  · exact memRead_kbsr_byte (s := { s with abortIn := x }) h
  · exact memRead_kbsr_none (s := { s with abortIn := x }) h

theorem memRead_with_cond (a : Word) (s : State) (c : BitVec 3) :
    memRead a { s with cond := c } = ((memRead a s).1, { (memRead a s).2 with cond := c }) := by
  rcases memRead_cases a s with ⟨h, e⟩ | ⟨rfl, b, rest, h, e⟩ | ⟨rfl, h, e⟩ <;> rw [e]
  · exact memRead_of_ne h _
  · exact memRead_kbsr_byte (s := { s with cond := c }) h
  · exact memRead_kbsr_none (s := { s with cond := c }) h

/-! ### Fetch (R57) -/

/-- The fetch is a memory read at PC, then PC + 1. -/
theorem fetch_eq (s : State) : fetch s = ((memRead s.pc s).1, (memRead s.pc s).2.setPc (s.pc + 1)) := rfl

/-- The fetched word where PC is not KBSR_ADDR, and the state it leaves. -/
theorem fetch_of_ne {s : State} (h : s.pc ≠ Config.kbsrAddr) : fetch s = (s.mem.read s.pc, s.setPc (s.pc + 1)) := by
  rw [fetch_eq, memRead_of_ne h]

/-! ### Flags (R20) -/

/-- Exactly one flag describes a value. -/
theorem condOf_cases (v : Word) :
    (v = 0 ∧ condOf v = flagZ) ∨ (v ≠ 0 ∧ v.getLsbD 15 = true ∧ condOf v = flagN) ∨
    (v ≠ 0 ∧ v.getLsbD 15 = false ∧ condOf v = flagP) := by
  unfold condOf
  by_cases h : v = 0
  · exact .inl ⟨h, if_pos h⟩
  · cases hs : v.getLsbD 15
    · exact .inr (.inr ⟨h, rfl, if_neg h⟩)
    · exact .inr (.inl ⟨h, rfl, if_neg h⟩)

/-! ### Reads that hold (R94) -/

/-- Everything a console read inside a routine can do: end the routine with a byte, or hold. -/
theorem readOrHold_cases (h : Hold) (finish : Byte → State → State) (s : State) :
    (∃ b rest, s.console = some b :: rest ∧
      readOrHold h finish s = finish b { s with console := rest, hold := .free }) ∨
    ((∀ b rest, s.console ≠ some b :: rest) ∧
      readOrHold h finish s = { s with console := s.console.tail, hold := h }) := by
  rcases nextAnswer_cases s with ⟨b, rest, hc, hn⟩ | ⟨hc, hn⟩
  · exact .inl ⟨b, rest, hc, by simp [readOrHold, consoleRead, hn]⟩
  · exact .inr ⟨hc, by simp [readOrHold, consoleRead, hn]⟩

/-! ### Strings (R89, R91) -/

/-- The bytes a raw scan writes: those of each word from `a` on, up to the first zero word or the word at 0xFFFF. -/
def stringBytes (emit : Word → List Byte) (m : Mem) : (rest : Nat) → (a : Word) → List Byte
  | 0, a => if m.read a = 0 then [] else emit (m.read a)
  | rest + 1, a => if m.read a = 0 then [] else emit (m.read a) ++ stringBytes emit m rest (a + 1)

/-- A scan that does not poll only writes output. -/
theorem scanString_raw (emit : Word → List Byte) (rest : Nat) (a : Word) (s : State) :
    scanString false emit rest a s = s.consoleWriteAll (stringBytes emit s.mem rest a) := by
  induction rest generalizing a s with
  | zero =>
    show (if s.mem.read a = 0 then s else _) = s.consoleWriteAll (if s.mem.read a = 0 then [] else _)
    split
    · simp [State.consoleWriteAll]
    · rfl
  | succ rest ih =>
    show (if s.mem.read a = 0 then s else _) = s.consoleWriteAll (if s.mem.read a = 0 then [] else _)
    split
    · simp [State.consoleWriteAll]
    · exact (ih _ _).trans (by simp [State.consoleWriteAll, strRead, rawRead, List.append_assoc])

/-- PUTS only writes output. -/
theorem routinePuts_eq (s : State) : routinePuts s =
    s.consoleWriteAll (stringBytes putsBytes s.mem (65535 - (s.readReg 0).toNat) (s.readReg 0)) :=
  scanString_raw _ _ _ _

/-- PUTSP only writes output. -/
theorem routinePutsp_eq (s : State) : routinePutsp s =
    s.consoleWriteAll (stringBytes putspBytes s.mem (65535 - (s.readReg 0).toNat) (s.readReg 0)) :=
  scanString_raw _ _ _ _

end Sys2Proof.Machine
end

