-- ==== Sys2Proof/Laws/PerInstr.lean ====
section
/-! SUPPORT. Facts for all instructions, made per instruction. Family `RowFits`: the encoded word has the fixed bits of
its row of spec/opcode_table.json (match and mask). -/

namespace Sys2Proof.Laws.RowFits

/-- The word of `i` fits `i`'s row of the table. -/
def Statement (i : Instr) : Prop := (tableRow i).matches (encode i) = true

/-- A word fits a row whose fixed bits it has. -/
theorem fits_of_bits {r : TableRow} {w : Word} (hr : r.value &&& r.mask = r.value)
    (h : ∀ k < 16, r.mask.getLsbD k = true → w.getLsbD k = r.value.getLsbD k) : r.matches w = true := by
  refine beq_iff_eq.mpr (BitVec.eq_of_getLsbD_eq fun k hk => ?_)
  rw [← hr, BitVec.getLsbD_and, BitVec.getLsbD_and]
  cases hm : r.mask.getLsbD k
  · simp
  · rw [h k hk hm]

theorem br : ∀ nzp off9, Statement (.br nzp off9) := by
  intros
  refine fits_of_bits (r := ⟨0x0000, 0xF000⟩) (by decide) fun k hk hm => ?_
  simp only [encode, pack_getLsbD, BitVec.getLsbD_append]
  interval_cases k <;> first | rfl | exact absurd hm (by decide)

theorem addReg : ∀ dr sr1 sr2, Statement (.addReg dr sr1 sr2) := by
  intros
  refine fits_of_bits (r := ⟨0x1000, 0xF020⟩) (by decide) fun k hk hm => ?_
  simp only [encode, pack_getLsbD, BitVec.getLsbD_append]
  interval_cases k <;> first | rfl | exact absurd hm (by decide)

theorem addImm : ∀ dr sr1 imm5, Statement (.addImm dr sr1 imm5) := by
  intros
  refine fits_of_bits (r := ⟨0x1020, 0xF020⟩) (by decide) fun k hk hm => ?_
  simp only [encode, pack_getLsbD, BitVec.getLsbD_append]
  interval_cases k <;> first | rfl | exact absurd hm (by decide)

theorem ld : ∀ dr off9, Statement (.ld dr off9) := by
  intros
  refine fits_of_bits (r := ⟨0x2000, 0xF000⟩) (by decide) fun k hk hm => ?_
  simp only [encode, pack_getLsbD, BitVec.getLsbD_append]
  interval_cases k <;> first | rfl | exact absurd hm (by decide)

theorem st : ∀ sr off9, Statement (.st sr off9) := by
  intros
  refine fits_of_bits (r := ⟨0x3000, 0xF000⟩) (by decide) fun k hk hm => ?_
  simp only [encode, pack_getLsbD, BitVec.getLsbD_append]
  interval_cases k <;> first | rfl | exact absurd hm (by decide)

theorem jsrr : ∀ baser, Statement (.jsrr baser) := by
  intros
  refine fits_of_bits (r := ⟨0x4000, 0xF800⟩) (by decide) fun k hk hm => ?_
  simp only [encode, pack_getLsbD, BitVec.getLsbD_append]
  interval_cases k <;> first | rfl | exact absurd hm (by decide)

theorem jsr : ∀ off11, Statement (.jsr off11) := by
  intros
  refine fits_of_bits (r := ⟨0x4800, 0xF800⟩) (by decide) fun k hk hm => ?_
  simp only [encode, pack_getLsbD, BitVec.getLsbD_append]
  interval_cases k <;> first | rfl | exact absurd hm (by decide)

theorem andReg : ∀ dr sr1 sr2, Statement (.andReg dr sr1 sr2) := by
  intros
  refine fits_of_bits (r := ⟨0x5000, 0xF020⟩) (by decide) fun k hk hm => ?_
  simp only [encode, pack_getLsbD, BitVec.getLsbD_append]
  interval_cases k <;> first | rfl | exact absurd hm (by decide)

theorem andImm : ∀ dr sr1 imm5, Statement (.andImm dr sr1 imm5) := by
  intros
  refine fits_of_bits (r := ⟨0x5020, 0xF020⟩) (by decide) fun k hk hm => ?_
  simp only [encode, pack_getLsbD, BitVec.getLsbD_append]
  interval_cases k <;> first | rfl | exact absurd hm (by decide)

theorem ldr : ∀ dr baser off6, Statement (.ldr dr baser off6) := by
  intros
  refine fits_of_bits (r := ⟨0x6000, 0xF000⟩) (by decide) fun k hk hm => ?_
  simp only [encode, pack_getLsbD, BitVec.getLsbD_append]
  interval_cases k <;> first | rfl | exact absurd hm (by decide)

theorem str : ∀ sr baser off6, Statement (.str sr baser off6) := by
  intros
  refine fits_of_bits (r := ⟨0x7000, 0xF000⟩) (by decide) fun k hk hm => ?_
  simp only [encode, pack_getLsbD, BitVec.getLsbD_append]
  interval_cases k <;> first | rfl | exact absurd hm (by decide)

theorem rti : ∀ low, Statement (.rti low) := by
  intros
  refine fits_of_bits (r := ⟨0x8000, 0xF000⟩) (by decide) fun k hk hm => ?_
  simp only [encode, pack_getLsbD, BitVec.getLsbD_append]
  interval_cases k <;> first | rfl | exact absurd hm (by decide)

theorem not : ∀ dr sr, Statement (.not dr sr) := by
  intros
  refine fits_of_bits (r := ⟨0x9000, 0xF000⟩) (by decide) fun k hk hm => ?_
  simp only [encode, pack_getLsbD, BitVec.getLsbD_append]
  interval_cases k <;> first | rfl | exact absurd hm (by decide)

theorem ldi : ∀ dr off9, Statement (.ldi dr off9) := by
  intros
  refine fits_of_bits (r := ⟨0xA000, 0xF000⟩) (by decide) fun k hk hm => ?_
  simp only [encode, pack_getLsbD, BitVec.getLsbD_append]
  interval_cases k <;> first | rfl | exact absurd hm (by decide)

theorem sti : ∀ sr off9, Statement (.sti sr off9) := by
  intros
  refine fits_of_bits (r := ⟨0xB000, 0xF000⟩) (by decide) fun k hk hm => ?_
  simp only [encode, pack_getLsbD, BitVec.getLsbD_append]
  interval_cases k <;> first | rfl | exact absurd hm (by decide)

theorem jmp : ∀ baser, Statement (.jmp baser) := by
  intros
  refine fits_of_bits (r := ⟨0xC000, 0xF000⟩) (by decide) fun k hk hm => ?_
  simp only [encode, pack_getLsbD, BitVec.getLsbD_append]
  interval_cases k <;> first | rfl | exact absurd hm (by decide)

theorem res : ∀ low, Statement (.res low) := by
  intros
  refine fits_of_bits (r := ⟨0xD000, 0xF000⟩) (by decide) fun k hk hm => ?_
  simp only [encode, pack_getLsbD, BitVec.getLsbD_append]
  interval_cases k <;> first | rfl | exact absurd hm (by decide)

theorem lea : ∀ dr off9, Statement (.lea dr off9) := by
  intros
  refine fits_of_bits (r := ⟨0xE000, 0xF000⟩) (by decide) fun k hk hm => ?_
  simp only [encode, pack_getLsbD, BitVec.getLsbD_append]
  interval_cases k <;> first | rfl | exact absurd hm (by decide)

theorem trap : ∀ high vect, Statement (.trap high vect) := by
  intros
  refine fits_of_bits (r := ⟨0xF000, 0xF000⟩) (by decide) fun k hk hm => ?_
  simp only [encode, pack_getLsbD, BitVec.getLsbD_append]
  interval_cases k <;> first | rfl | exact absurd hm (by decide)

theorem trapGetc : Statement .trapGetc := rfl

theorem trapOut : Statement .trapOut := rfl

theorem trapPuts : Statement .trapPuts := rfl

theorem trapIn : Statement .trapIn := rfl

theorem trapPutsp : Statement .trapPutsp := rfl

theorem trapHalt : Statement .trapHalt := rfl

end Sys2Proof.Laws.RowFits
end

