-- ==== Sys2Proof/Laws/Step.lean ====
section
/-! SUPPORT. What one step can do, said once, and the trap routines' frames. -/

namespace Sys2Proof.Machine

/-- Everything a step can do: nothing in a terminal state, the host's abort, one more try of a held read, or the decoded
instruction on the state the fetch leaves. -/
theorem step_cases {s t : State} (h : step s = .next t) :
    (s.run ≠ .running ∧ t = s) ∨
    (s.run = .running ∧ s.abortIn = some 0 ∧ t = s.hostAbort) ∨
    (s.run = .running ∧ s.abortIn ≠ some 0 ∧ s.hold ≠ .free ∧ t = resumeHeld (passBoundary s)) ∨
    (s.run = .running ∧ s.abortIn ≠ some 0 ∧ s.hold = .free ∧
      exec (decode (fetch (passBoundary s)).1) (fetch (passBoundary s)).2 = .next t) := by
  unfold step at h
  split at h
  · next hr =>
    split at h
    · next ha => exact .inr (.inl ⟨hr, by simpa [abortsNow] using ha, (Host.Outcome.next.inj h).symm⟩)
    · next ha =>
      have ha' : s.abortIn ≠ some 0 := by simpa [abortsNow] using ha
      unfold advance at h
      split at h
      · next hh => exact .inr (.inr (.inr ⟨hr, ha', hh, h⟩))
      · next hh =>
        have hh' : s.hold = .getc := hh
        exact .inr (.inr (.inl ⟨hr, ha', by simp [hh'], (Host.Outcome.next.inj h).symm⟩))
      · next hh =>
        have hh' : s.hold = .inp := hh
        exact .inr (.inr (.inl ⟨hr, ha', by simp [hh'], (Host.Outcome.next.inj h).symm⟩))
  · next hr => exact .inl ⟨by simp [hr], (Host.Outcome.next.inj h).symm⟩
  · next hr => exact .inl ⟨by simp [hr], (Host.Outcome.next.inj h).symm⟩
  · next hr => exact .inl ⟨by simp [hr], (Host.Outcome.next.inj h).symm⟩

/-- Passing a boundary does not change what is fetched. -/
theorem fetch_passBoundary (s : State) :
    fetch (passBoundary s) = ((fetch s).1, { (fetch s).2 with abortIn := s.abortIn.map (· - 1) }) := by
  have h := memRead_with_abortIn s.pc s (s.abortIn.map (· - 1))
  show ((memRead s.pc { s with abortIn := s.abortIn.map (· - 1) }).1,
    (memRead s.pc { s with abortIn := s.abortIn.map (· - 1) }).2.setPc (s.pc + 1)) = _
  rw [h]
  rfl

/-- A trap routine run after trap entry ends in a state that differs from the entry's only as this says: R0 by GETC and IN,
the run state by HALT and an unknown vector, the hold and the console by GETC and IN, and the output (R93). -/
structure RoutineFrame (s t : State) : Prop where
  pc : t.pc = s.pc
  cond : t.cond = s.cond
  mem : t.mem = s.mem
  abortIn : t.abortIn = s.abortIn
  regs : ∀ r, r ≠ 0 → t.readReg r = s.readReg r

theorem routineFrame_readOrHold (h : Hold) {finish : Byte → State → State}
    (hf : ∀ b u, RoutineFrame u (finish b u)) (s : State) : RoutineFrame s (readOrHold h finish s) := by
  rcases readOrHold_cases h finish s with ⟨b, rest, _, e⟩ | ⟨_, e⟩ <;> rw [e]
  · obtain ⟨h1, h2, h3, h4, h5⟩ := hf b { s with console := rest, hold := .free }
    exact ⟨h1, h2, h3, h4, h5⟩
  · exact ⟨rfl, rfl, rfl, rfl, fun _ _ => rfl⟩

theorem routineFrame_finishGetc (b : Byte) (s : State) : RoutineFrame s (finishGetc b s) :=
  ⟨rfl, rfl, rfl, rfl, fun _ hr => readReg_writeReg_ne s _ hr⟩

theorem routineFrame_finishIn (b : Byte) (s : State) : RoutineFrame s (finishIn b s) :=
  ⟨rfl, rfl, rfl, rfl, fun _ hr => readReg_writeReg_ne _ _ hr⟩

theorem routineFrame_getc (s : State) : RoutineFrame s (routineGetc s) :=
  routineFrame_readOrHold _ routineFrame_finishGetc s

theorem routineFrame_in (s : State) : RoutineFrame s (routineIn s) := by
  obtain ⟨h1, h2, h3, h4, h5⟩ := routineFrame_readOrHold .inp routineFrame_finishIn (s.consoleWriteAll Config.inPrompt)
  exact ⟨h1, h2, h3, h4, h5⟩

theorem routineFrame_out (s : State) : RoutineFrame s (routineOut s) := ⟨rfl, rfl, rfl, rfl, fun _ _ => rfl⟩

theorem routineFrame_puts (s : State) : RoutineFrame s (routinePuts s) := by
  rw [routinePuts_eq]
  exact ⟨rfl, rfl, rfl, rfl, fun _ _ => rfl⟩

theorem routineFrame_putsp (s : State) : RoutineFrame s (routinePutsp s) := by
  rw [routinePutsp_eq]
  exact ⟨rfl, rfl, rfl, rfl, fun _ _ => rfl⟩

theorem routineFrame_halt (s : State) : RoutineFrame s (routineHalt s) := ⟨rfl, rfl, rfl, rfl, fun _ _ => rfl⟩

theorem routineFrame_fatal (c : FatalCause) (w : Word) (s : State) : RoutineFrame s (raiseFatal c w s) :=
  ⟨rfl, rfl, rfl, rfl, fun _ _ => rfl⟩

/-- The dispatcher runs one routine or raises the fatal error (R85). -/
theorem trapDispatch_frame (v : BitVec 8) (w : Word) (s : State) : RoutineFrame s (trapDispatch v w s) := by
  unfold trapDispatch
  repeat' split
  · exact routineFrame_getc s
  · exact routineFrame_out s
  · exact routineFrame_puts s
  · exact routineFrame_in s
  · exact routineFrame_putsp s
  · exact routineFrame_halt s
  · exact routineFrame_fatal _ w s

end Sys2Proof.Machine
end

