-- ==== Sys2Proof/Tests/Slice0.lean ====
section
/-! SUPPORT. Tests of one step or less, with results from spec/ (the rule or vector table is named beside each), and for
every statement with hypotheses a state and operands that meet them. -/

namespace Sys2Proof.Tests

open Sys2Proof Sys2Proof.Machine

/-! ### Helpers -/

/-- Reset with a PC, registers, memory words and the host's coming answers. -/
def mk (pc : Word) (regs : List (RegIdx × Word)) (words : List (Word × Word)) (console : List (Option Byte)) : State :=
  let s := regs.foldl (fun s r => s.writeReg r.1 r.2) State.reset
  { s with pc := pc, mem := words.foldl (fun m w => m.write w.1 w.2) s.mem, console := console }

/-- The next state, where there is one. -/
def after : Result → Option State
  | .next t => some t
  | .fault _ => none
  | .refused _ => none

/-- One step on an instruction's word placed at `pc`. -/
def runWord (w pc : Word) (regs : List (RegIdx × Word)) (words : List (Word × Word)) (console : List (Option Byte)) :
    Option State :=
  after (step (mk pc regs ((pc, w) :: words) console))

/-- A step that gives register `r`, COND and PC. -/
def regCondPc (r : RegIdx) (o : Option State) : Option (Word × BitVec 3 × Word) :=
  o.map fun t => (t.readReg r, t.cond, t.pc)

/-! ### Well-formedness: the one check, on each defined vector (R61, R85) -/

theorem test_illformed_getc : (Instr.trap 0 0x20).wellFormed = false := by decide
theorem test_illformed_out : (Instr.trap 0 0x21).wellFormed = false := by decide
theorem test_illformed_puts : (Instr.trap 0 0x22).wellFormed = false := by decide
theorem test_illformed_in : (Instr.trap 0 0x23).wellFormed = false := by decide
theorem test_illformed_putsp : (Instr.trap 0 0x24).wellFormed = false := by decide
theorem test_illformed_halt : (Instr.trap 15 0x25).wellFormed = false := by decide
theorem test_wellformed_edges : (Instr.trap 0 0x1F).wellFormed = true ∧ (Instr.trap 0 0x26).wellFormed = true := by decide

/-! ### Decoding: words written out bit by bit from R50 and R52, one for each constructor -/

theorem test_decode_br : decode 0b0000_101_011111111 = .br 0b101 0b011111111 := by decide
theorem test_decode_addReg : decode 0b0001_110_011_0_11_101 = .addReg 6 3 5 := by decide
theorem test_decode_addImm : decode 0b0001_110_011_1_10000 = .addImm 6 3 0b10000 := by decide
theorem test_decode_ld : decode 0b0010_001_000000100 = .ld 1 4 := by decide
theorem test_decode_st : decode 0b0011_100_100000001 = .st 4 0b100000001 := by decide
theorem test_decode_jsrr : decode 0b0100_0_11_110_101010 = .jsrr 6 := by decide
theorem test_decode_jsr : decode 0b0100_1_10000000001 = .jsr 0b10000000001 := by decide
theorem test_decode_andReg : decode 0b0101_011_001_0_00_010 = .andReg 3 1 2 := by decide
theorem test_decode_andImm : decode 0b0101_010_010_1_01111 = .andImm 2 2 0b01111 := by decide
theorem test_decode_ldr : decode 0b0110_001_010_111111 = .ldr 1 2 0b111111 := by decide
theorem test_decode_str : decode 0b0111_010_001_000010 = .str 2 1 2 := by decide
theorem test_decode_rti : decode 0b1000_111100001010 = .rti 0b111100001010 := by decide
theorem test_decode_not : decode 0b1001_001_000_000000 = .not 1 0 := by decide
theorem test_decode_ldi : decode 0b1010_111_000000010 = .ldi 7 2 := by decide
theorem test_decode_sti : decode 0b1011_001_000000010 = .sti 1 2 := by decide
theorem test_decode_jmp : decode 0b1100_111_010_000001 = .jmp 2 := by decide
theorem test_decode_res : decode 0b1101_000100100011 = .res 0x123 := by decide
theorem test_decode_lea : decode 0b1110_000_000000111 = .lea 0 7 := by decide
theorem test_decode_trap : decode 0b1111_0101_00100110 = .trap 5 0x26 := by decide
theorem test_decode_trapGetc : decode 0b1111_0000_00100000 = .trapGetc := by decide
theorem test_decode_trapOut : decode 0b1111_0000_00100001 = .trapOut := by decide
theorem test_decode_trapPuts : decode 0b1111_0001_00100010 = .trapPuts := by decide
theorem test_decode_trapIn : decode 0b1111_0000_00100011 = .trapIn := by decide
theorem test_decode_trapPutsp : decode 0b1111_0000_00100100 = .trapPutsp := by decide
theorem test_decode_trapHalt : decode 0b1111_1111_00100101 = .trapHalt := by decide
/-- Bytes are read high byte first, and too few of them are refused by name. -/
theorem test_decode_bytes : (decodeBytes [0x12, 0x61, 0xF0]).toOption = some (.addImm 1 1 1, [0xF0]) ∧
    (decodeBytes [0x12]).toOption = none := by decide
theorem test_decodeTableWord : decodeTableWord 16 0x9000 = some (.not 0 0) ∧ decodeTableWord 17 0 = none := by decide

/-! ### Sign extension (S2) -/

theorem test_sext : sext 0b10000#5 = 0xFFF0 ∧ sext 0x1FF#9 = 0xFFFF ∧ sext 0x0F#5 = 0x000F ∧ sext 0x20#6 = 0xFFE0 ∧
    sext 0x400#11 = 0xFC00 ∧ sext 0x3FF#11 = 0x03FF := by decide

/-! ### Operate instructions (95 section 2.2) -/

theorem test_addReg_same : regCondPc 2 (runWord 0x1482 0x3000 [(2, 0x4000)] [] []) = some (0x8000, 0b100, 0x3001) := by decide
theorem test_addReg_carry :
    regCondPc 0 (runWord 0x1042 0x3000 [(1, 0x8000), (2, 0x8000)] [] []) = some (0x0000, 0b010, 0x3001) := by decide
theorem test_addImm_wrap : regCondPc 0 (runWord 0x1061 0x3000 [(1, 0x7FFF)] [] []) = some (0x8000, 0b100, 0x3001) := by decide
theorem test_addImm_negative : regCondPc 0 (runWord 0x1030 0x3000 [(0, 0x0010)] [] []) = some (0x0000, 0b010, 0x3001) := by decide
theorem test_andReg :
    regCondPc 0 (runWord 0x5042 0x3000 [(1, 0x00FF), (2, 0x0F0F)] [] []) = some (0x000F, 0b001, 0x3001) := by decide
theorem test_andImm_negative : regCondPc 0 (runWord 0x5070 0x3000 [(1, 0xFFFF)] [] []) = some (0xFFF0, 0b100, 0x3001) := by decide
theorem test_andImm_positive : regCondPc 0 (runWord 0x506F 0x3000 [(1, 0xFFFF)] [] []) = some (0x000F, 0b001, 0x3001) := by decide
theorem test_not : regCondPc 0 (runWord 0x907F 0x3000 [(1, 0x8000)] [] []) = some (0x7FFF, 0b001, 0x3001) := by decide
theorem test_not_unused : regCondPc 0 (runWord 0x905F 0x3000 [(1, 3)] [] []) = some (0xFFFC, 0b100, 0x3001) := by decide

/-! ### Control transfer (95 section 2.3, S6) -/

theorem test_br_at_reset : regCondPc 0 (runWord 0x0E05 0x3000 [] [] []) = some (0, 0b000, 0x3001) := by decide
theorem test_br_wraps :
    (after (step { mk 0x0000 [] [(0x0000, 0x0900)] [] with cond := 0b100 })).map (·.pc) = some 0xFF01 := by decide
theorem test_jmp : regCondPc 7 (runWord 0xC080 0x3000 [(2, 0x1234)] [] []) = some (0, 0b000, 0x1234) := by decide
theorem test_ret : regCondPc 7 (runWord 0xC1C0 0x3000 [(7, 0x3456)] [] []) = some (0x3456, 0b000, 0x3456) := by decide
theorem test_jsr_negative : regCondPc 7 (runWord 0x4C00 0x0100 [] [] []) = some (0x0101, 0b000, 0xFD01) := by decide
theorem test_jsr_wraps : regCondPc 7 (runWord 0x4BFF 0xFFF0 [] [] []) = some (0xFFF1, 0b000, 0x03F0) := by decide
theorem test_jsrr : regCondPc 7 (runWord 0x40C0 0x3000 [(3, 0x5000)] [] []) = some (0x3001, 0b000, 0x5000) := by decide
theorem test_jsrr_r7 : regCondPc 7 (runWord 0x41C0 0x3000 [(7, 0x5000)] [] []) = some (0x3001, 0b000, 0x3001) := by decide

/-! ### Loads and stores (95 section 2.4) -/

theorem test_ld_polls : (runWord 0x2000 0xFDFF [] [] [some 0x7A]).map
    (fun t => (t.readReg 0, t.cond, t.mem.read 0xFE00, t.mem.read 0xFE02, t.pc)) =
    some (0x8000, 0b100, 0x8000, 0x007A, 0xFE00) := by decide
theorem test_ld_poll_none : (runWord 0x2000 0xFDFF [] [(0xFE02, 0x0041)] [none]).map
    (fun t => (t.readReg 0, t.cond, t.mem.read 0xFE00, t.mem.read 0xFE02)) = some (0x0000, 0b010, 0x0000, 0x0041) := by decide
theorem test_ldi : regCondPc 0 (runWord 0xA002 0x3000 [] [(0x3003, 0x4000), (0x4000, 0xBEEF)] []) =
    some (0xBEEF, 0b100, 0x3001) := by decide
theorem test_ldi_polls : (runWord 0xA000 0x3000 [] [(0x3001, 0xFE00)] [some 0x62]).map
    (fun t => (t.readReg 0, t.mem.read 0xFE02)) = some (0x8000, 0x0062) := by decide
theorem test_ldr_wraps : regCondPc 0 (runWord 0x605F 0x3000 [(1, 0xFFFF)] [(0x001E, 0x8000)] []) =
    some (0x8000, 0b100, 0x3001) := by decide
theorem test_ldr_negative : regCondPc 0 (runWord 0x6060 0x3000 [(1, 0x0010)] [(0xFFF0, 0x00FF)] []) =
    some (0x00FF, 0b001, 0x3001) := by decide
theorem test_lea_no_poll : (runWord 0xE000 0xFDFF [] [] [some 0x41]).map
    (fun t => (t.readReg 0, t.cond, t.console)) = some (0xFE00, 0b100, [some 0x41]) := by decide
theorem test_lea_zero : regCondPc 0 (runWord 0xE1FF 0x0000 [] [] []) = some (0x0000, 0b010, 0x0001) := by decide
theorem test_st_device : (runWord 0x3000 0xFDFF [(0, 0x1234)] [] [some 0x41]).map
    (fun t => (t.mem.read 0xFE00, t.console)) = some (0x1234, [some 0x41]) := by decide
theorem test_st : (runWord 0x3001 0x3005 [(0, 0xABCD)] [] []).map (fun t => t.mem.read 0x3007) = some 0xABCD := by decide
theorem test_sti : (runWord 0xB202 0x3000 [(1, 0xAAAA)] [(0x3003, 0x5000)] []).map (fun t => t.mem.read 0x5000) =
    some 0xAAAA := by decide
theorem test_str : (runWord 0x7442 0x3000 [(1, 0x4000), (2, 0x0007)] [] []).map (fun t => t.mem.read 0x4002) =
    some 0x0007 := by decide
theorem test_str_same : (runWord 0x7000 0x3000 [(0, 0x4000)] [] []).map (fun t => t.mem.read 0x4000) = some 0x4000 := by decide

/-! ### TRAP (95 section 2.5) -/

theorem test_getc : (runWord 0xF020 0x3000 [] [] [some 0xFF]).map
    (fun t => (t.readReg 0, t.readReg 7, t.cond, t.output)) = some (0x00FF, 0x3001, 0b000, []) := by decide
theorem test_getc_holds : (runWord 0xF020 0x3000 [] [] []).map
    (fun t => (t.readReg 0, t.readReg 7, t.hold, t.run)) = some (0x0000, 0x3001, .getc, .running) := by decide
theorem test_out : (runWord 0xF021 0x3000 [(0, 0x0141)] [] []).map (fun t => (t.output, t.readReg 7, t.pc)) =
    some ([0x41], 0x3001, 0x3001) := by decide
theorem test_puts_low_byte : (runWord 0xF022 0x3000 [(0, 0x4000)] [(0x4000, 0x0100), (0x4001, 0x0041)] []).map (·.output) =
    some [0x00, 0x41] := by decide
theorem test_puts_end_of_memory : (runWord 0xF022 0x3000 [(0, 0xFFFE)]
    [(0xFFFE, 0x0041), (0xFFFF, 0x0042), (0x0000, 0x0043)] []).map (·.output) = some [0x41, 0x42] := by decide
/-- The output holds the prompt, whose text is open; R0 and the hold do not depend on it. -/
theorem test_in : (runWord 0xF023 0x3000 [] [] [some 0xC3]).map (fun t => (t.readReg 0, t.readReg 7, t.hold)) =
    some (0x00C3, 0x3001, .free) := by decide
theorem test_putsp : (runWord 0xF024 0x3000 [(0, 0x4000)]
    [(0x4000, 0x6548), (0x4001, 0x6C6C), (0x4002, 0x006F)] []).map (·.output) = some [0x48, 0x65, 0x6C, 0x6C, 0x6F] := by decide
theorem test_putsp_zero_low : (runWord 0xF024 0x3000 [(0, 0x4000)] [(0x4000, 0x4100)] []).map (·.output) =
    some [0x00, 0x41] := by decide
theorem test_halt : (runWord 0xFF25 0x3002 [] [] []).map (fun t => (t.run, t.readReg 7, t.pc)) =
    some (.halted, 0x3003, 0x3003) := by decide
theorem test_trap_unknown : (runWord 0xF026 0x3000 [] [] []).map (fun t => (t.run, t.readReg 7, t.pc, t.output)) =
    some (.fatal .unimplementedTrapVector 0xF026, 0x3001, 0x3001, []) := by decide

/-! ### Reserved opcodes, fetch and the end of a run (95 sections 2.1, 2.6, 2.7, S9) -/

theorem test_rti : (runWord 0x8FFF 0x3000 [] [] []).map (fun t => (t.run, t.pc)) =
    some (.fatal .unimplementedOpcode 0x8FFF, 0x3001) := by decide
theorem test_res_wraps : (runWord 0xD000 0xFFFF [] [] []).map (fun t => (t.run, t.pc)) =
    some (.fatal .unimplementedOpcode 0xD000, 0x0000) := by decide
theorem test_fetch_polls : (after (step (mk 0xFE00 [] [] [some 0x41]))).map (fun t => (t.run, t.mem.read 0xFE02)) =
    some (.fatal .unimplementedOpcode 0x8000, 0x0041) := by decide
theorem test_abort : (after (step { mk 0x3000 [] [(0x3000, 0x1025)] [] with abortIn := some 0 })).map
    (fun t => (t.run, t.pc, t.readReg 0)) = some (.aborted, 0x3000, 0) := by decide
theorem test_image : loadImages .reject [] [some [0x30, 0x00, 0x12, 0x34], some [0x30, 0x00, 0x56, 0x78]] =
    .loaded (Mem.write [] 0x3000 0x5678) := by decide
/-- An image one word too long under each policy (R115), and startup without an image. -/
theorem test_image_policy :
    loadImage .reject [] (some [0xFF, 0xFF, 0x12, 0x34, 0x56, 0x78]) = .failed ∧
    loadImage .truncate [] (some [0xFF, 0xFF, 0x12, 0x34, 0x56, 0x78]) = .loaded (Mem.write [] 0xFFFF 0x1234) ∧
    boot .reject 0b000 [] [] none = .noRun := by decide
theorem test_fetch_word_runs : (after (step (State.reset.withFetchWord 16 0x1025))).map (·.readReg 0) = some 5 := by decide

/-! ### Witnesses: what meets the hypotheses of the statements -/

theorem witness_wellFormed : (Instr.trap 3 0x26).wellFormed = true ∧ (Instr.addReg 7 7 7).wellFormed = true := by decide
theorem witness_fatal_words :
    (0x8000 : Word).extractLsb' 12 4 = 0x8 ∧ (0xDFFF : Word).extractLsb' 12 4 = 0xD ∧
    (0xF01F : Word).extractLsb' 12 4 = 0xF ∧ (0xF01F : Word).toNat % 256 < 0x20 ∧ 0x25 < (0xF026 : Word).toNat % 256 := by
  decide
theorem witness_unused_bits :
    (0x923F : Word) &&& usedMask (decode 0x923F) = 0x9200 &&& usedMask (decode 0x923F) ∧
    (0x8000 : Word) &&& usedMask (decode 0x8000) = 0x8FFF &&& usedMask (decode 0x8000) ∧
    (0xF026 : Word) &&& usedMask (decode 0xF026) = 0xFF26 &&& usedMask (decode 0xF026) := by decide
theorem witness_widths : (0 < 5 ∧ 5 ≤ 16) ∧ (0 < 16 ∧ 16 ≤ 16) := by decide
/-- Images that load, and one that does not. -/
theorem witness_startup :
    ([some [0x30, 0x00, 0xF0, 0x25]] : List (Option (List Byte))) ≠ [] ∧
    loadImages .reject [] [some [0x30, 0x00, 0xF0, 0x25]] = .loaded (Mem.write [] 0x3000 0xF025) ∧
    loadImages .reject [] [some [0x30, 0x00], none] = .failed := by decide
/-- An image that just fits above its origin, and one a word too long. -/
theorem witness_image_room :
    ([0x1234] : List Word).length ≤ 65536 - (0xFFFF : Word).toNat ∧
    65536 - (0xFFFF : Word).toNat < ([0x1234, 0x5678] : List Word).length := by decide
theorem witness_later_image :
    loadImages .truncate [] [some [0x30, 0x00, 0x12, 0x34]] = .loaded (Mem.write [] 0x3000 0x1234) ∧
    ([0x5678] : List Word).length ≤ 65536 - (0x3000 : Word).toNat := by decide
theorem witness_setcc : (0x8000 : Word).getLsbD 15 = true ∧ (0x7FFF : Word) ≠ 0x0000 ∧ (0x7FFF : Word).getLsbD 15 = false := by
  decide
/-- A flag-defining instruction and one that is not, each with a next state. -/
theorem witness_flag_writers :
    (∃ t, exec (.addImm 0 0 5) (mk 0x3001 [] [] []) = .next t) ∧ flagDefining (.addImm 0 0 5) = some 0 ∧
    (∃ t, exec (.jmp 0) (mk 0x3001 [] [] []) = .next t) ∧ flagDefining (.jmp 0) = none ∧ pcWriter (.addImm 0 0 5) = false :=
  ⟨⟨_, rfl⟩, rfl, ⟨_, rfl⟩, rfl, rfl⟩
/-- A store with a byte outside its word, and a load that polls with a byte outside the device words. -/
theorem witness_store_frame :
    (∃ t, exec (.st 0 0) (mk 0x3001 [] [] []) = .next t) ∧ storeAddress (.st 0 0) (mk 0x3001 [] [] []) = some 0x3001 ∧
    polls (.st 0 0) (mk 0x3001 [] [] []) = false ∧ 0 ≠ 2 * (0x3001 : Word).toNat ∧ 0 ≠ 2 * (0x3001 : Word).toNat + 1 ∧
    (∃ t, exec (.ld 0 0) (mk 0xFE00 [] [] []) = .next t) ∧ polls (.ld 0 0) (mk 0xFE00 [] [] []) = true ∧
    0 ≠ 2 * 0xFE00 ∧ 0 ≠ 2 * 0xFE00 + 1 :=
  ⟨⟨_, rfl⟩, by decide, by decide, by decide, by decide, ⟨_, rfl⟩, by decide, by decide, by decide⟩
theorem witness_not_branch :
    (∀ nzp off9, Instr.lea 0 0 ≠ .br nzp off9) ∧ ∃ t, exec (.lea 0 0) (mk 0x3001 [] [] []) = .next t :=
  ⟨by simp, ⟨_, rfl⟩⟩
/-- The three cases of a memory read: another address, KBSR_ADDR with a byte, KBSR_ADDR without one. -/
theorem witness_read_cases :
    (0xFE02 : Word) ≠ 0xFE00 ∧ (mk 0x3000 [] [] [some 0x41]).console = some 0x41 :: [] ∧
    (consolePoll (mk 0x3000 [] [] [some 0x41])).1 = some 0x41 ∧ (consolePoll (mk 0x3000 [] [] [none])).1 = none ∧
    NoByteNext (mk 0x3000 [] [] [none]) ∧ NoByteNext (mk 0x3000 [] [] []) := by
  refine ⟨by decide, rfl, rfl, rfl, ?_, ?_⟩ <;> simp [NoByteNext, mk]
theorem witness_free_step :
    (mk 0x3000 [] [] []).run = .running ∧ (mk 0x3000 [] [] []).hold = .free ∧ (mk 0x3000 [] [] []).abortIn ≠ some 0 ∧
    (mk 0x3000 [] [] []).pc ≠ 0xFE00 := by decide
/-- A store to the very next instruction by each of ST, STI and STR. -/
theorem witness_store_then_fetch :
    (∃ t, exec (.st 0 0) (mk 0x3001 [(0, 5)] [] []) = .next t ∧ t.pc ≠ 0xFE00 ∧ t.pc = 0x3001 + (0#9).signExtend 16) ∧
    (∃ t, exec (.sti 0 1) (mk 0x3001 [(0, 5)] [(0x3002, 0x3001)] []) = .next t ∧ t.pc ≠ 0xFE00 ∧
      t.pc = (memRead (0x3001 + (1#9).signExtend 16) (mk 0x3001 [(0, 5)] [(0x3002, 0x3001)] [])).1) ∧
    (∃ t, exec (.str 0 1 0) (mk 0x3001 [(0, 5), (1, 0x3001)] [] []) = .next t ∧ t.pc ≠ 0xFE00 ∧
      t.pc = (mk 0x3001 [(0, 5), (1, 0x3001)] [] []).readReg 1 + (0#6).signExtend 16) :=
  ⟨⟨_, rfl, by decide, by decide⟩, ⟨_, rfl, by decide, by decide⟩, ⟨_, rfl, by decide, by decide⟩⟩
theorem witness_canonical : Mem.wf (Mem.write [] 0xFFFF 0x1200) ∧
    (∀ a : Word, (Mem.write [] 0xFFFF 0x1200).read a = (Mem.write [] 0xFFFF 0x1200).read a) :=
  ⟨by decide, fun _ => rfl⟩
theorem witness_branch :
    (0b010 : BitVec 3) &&& { mk 0x3001 [] [] [] with cond := 0b010 }.cond ≠ 0b000 ∧
    (0b111 : BitVec 3) &&& (mk 0x3001 [] [] []).cond = 0b000 := by decide
theorem witness_byte_next : (mk 0x3001 [] [] [some 0x41, none]).console = some 0x41 :: [none] := rfl
/-- A block held in GETC and one held in IN, with and without a byte next. -/
theorem witness_held :
    (∃ t, exec .trapGetc (mk 0x3001 [] [] [none, some 0x41]) = .next t ∧ t.run = .running ∧ t.abortIn ≠ some 0 ∧
      t.hold ≠ .free ∧ t.hold = .getc ∧ t.console = some 0x41 :: []) ∧
    (∃ t, exec .trapIn (mk 0x3001 [] [] [none, none]) = .next t ∧ t.run = .running ∧ t.abortIn ≠ some 0 ∧
      t.hold ≠ .free ∧ t.hold = .inp ∧ NoByteNext t) :=
  ⟨⟨_, rfl, by decide, by decide, by decide, by decide, rfl⟩,
    ⟨_, rfl, by decide, by decide, by decide, by decide, by
      intro b rest h
      have h' : ([none] : List (Option Byte)) = some b :: rest := h
      simp at h'⟩⟩
/-- Steps that come to each terminal state, and a terminal state. -/
theorem witness_ends :
    (∃ t, step (mk 0x3000 [] [(0x3000, 0x8000)] []) = .next t ∧ t.run = .fatal .unimplementedOpcode 0x8000) ∧
    (∃ t, step (mk 0x3000 [] [(0x3000, 0xF025)] []) = .next t ∧ t.run = .halted) ∧
    (∃ t, step { mk 0x3000 [] [] [] with abortIn := some 0 } = .next t ∧ t.run = .aborted) ∧
    { mk 0x3000 [] [] [] with run := .halted }.run ≠ .running :=
  ⟨⟨_, rfl, by decide⟩, ⟨_, rfl, by decide⟩, ⟨_, rfl, by decide⟩, by decide⟩
theorem witness_invariant : (mk 0x4000 [(3, 7)] [(0x4000, 0x1025)] []).Inv ∧
    ∃ t, step (mk 0x4000 [(3, 7)] [(0x4000, 0x1025)] []) = .next t :=
  ⟨⟨by decide, by decide, by decide, by decide, by
      intro c w h
      exact absurd (show RunState.running = .fatal c w from h) (by simp)⟩, ⟨_, rfl⟩⟩
theorem witness_startup_started :
    boot .reject 0b010 [some [0x30, 0x00, 0xF0, 0x25]] [] none =
      .started (State.initial 0b010 (Mem.write [] 0x3000 0xF025) [] none) := by decide

end Sys2Proof.Tests
end

section
/-! The value of `sext_N` as a number (R8): the field's own value, plus the weight of the bits the extension sets. -/

namespace Sys2Proof

/-- The bits above the field, all set when its top bit is 1, weigh 65536 - 2^N (R8). -/
theorem toNat_sext_of_le {n : Nat} (f : BitVec n) (hn : n ≤ 16) :
    (sext f).toNat = f.toNat + if f.msb then 65536 - 2 ^ n else 0 := by
  rw [sext, BitVec.toNat_signExtend, BitVec.toNat_setWidth_of_le hn]

/-- Settles O7: the top bit is bit N - 1, and 2^N is at most 65536, so the weight may be subtracted after the sum. -/
theorem signExtensionFormula : Obligations.SignExtensionFormula := by
  intro n f _ hn
  have hpow : 2 ^ n ≤ 65536 := Nat.pow_le_pow_right (by decide) hn
  rw [toNat_sext_of_le f hn, BitVec.msb_eq_getLsbD_last]
  split
  · exact (Nat.add_sub_assoc hpow f.toNat).symm
  · rfl

end Sys2Proof
end

section
/-! COND over all instructions (R20, R21): what `setcc` leaves in it, and which instructions write it. -/

namespace Sys2Proof.Machine

/-- Settles O14: each of `condOf_cases`' three cases rules out the hypotheses of the other two clauses. -/
theorem setccRule : Obligations.SetccRule := by
  intro v s
  rw [setcc_cond]
  rcases condOf_cases v with ⟨rfl, e⟩ | ⟨h0, hN, e⟩ | ⟨h0, hP, e⟩
  · exact ⟨fun _ => e, fun hN => absurd hN (by decide), fun h0 _ => absurd rfl h0, rfl⟩
  · exact ⟨fun hz => absurd hz h0, fun _ => e, fun _ hP => absurd (hN.symm.trans hP) (by decide), rfl⟩
  · exact ⟨fun hz => absurd hz h0, fun hN => absurd (hN.symm.trans hP) (by decide), fun _ _ => e, rfl⟩

/-- The flag after a result is written is that of the value then in the register (R21). -/
theorem writeResult_cond_readReg (s : State) (r : RegIdx) (v : Word) :
    (s.writeResult r v).cond = condOf ((s.writeResult r v).readReg r) := by
  rw [writeResult_cond, readReg_writeResult, readReg_writeReg_same]

/-- Every flag-defining instruction ends in `x[DR] <- v; setcc(v)` (R21). -/
theorem exec_eq_writeResult {i : Instr} {r : RegIdx} (hi : flagDefining i = some r) (s : State) :
    ∃ u v, exec i s = .next (State.writeResult u r v) := by
  cases i with
  | addReg | addImm | andReg | andImm | not | ld | ldi | ldr | lea => cases hi; exact ⟨_, _, rfl⟩
  | br | st | sti | str | jmp | jsr | jsrr | rti | res => cases hi
  | trap | trapGetc | trapOut | trapPuts | trapIn | trapPutsp | trapHalt => cases hi

/-- An instruction that is not flag-defining leaves COND unchanged (R21). -/
theorem exec_cond_of_flagDefining_none {i : Instr} {s t : State} (hi : flagDefining i = none)
    (ht : exec i s = .next t) : t.cond = s.cond := by
  cases i with
  | addReg | addImm | andReg | andImm | not | ld | ldi | ldr | lea => cases hi
  | br =>
    cases ht
    split <;> rfl
  | st | str | jmp | jsr | jsrr | rti | res => cases ht; rfl
  | sti => cases ht; exact memRead_cond _ s
  | trap => cases ht; exact (trapDispatch_frame _ _ (trapEntry s)).cond
  | trapGetc => cases ht; exact (routineFrame_getc (trapEntry s)).cond
  | trapOut => cases ht; exact (routineFrame_out (trapEntry s)).cond
  | trapPuts => cases ht; exact (routineFrame_puts (trapEntry s)).cond
  | trapIn => cases ht; exact (routineFrame_in (trapEntry s)).cond
  | trapPutsp => cases ht; exact (routineFrame_putsp (trapEntry s)).cond
  | trapHalt => cases ht; exact (routineFrame_halt (trapEntry s)).cond

/-- Settles O15: a flag-defining instruction ends in `writeResult`, and no other instruction writes COND. -/
theorem flagWriters : Obligations.FlagWriters := by
  intro i s t ht
  refine ⟨fun r hr => ?_, fun hi => exec_cond_of_flagDefining_none hi ht⟩
  obtain ⟨u, v, hu⟩ := exec_eq_writeResult hr s
  cases hu.symm.trans ht
  exact writeResult_cond_readReg u r v

end Sys2Proof.Machine
end

section
/-! The two memory ports (R31, R32, R34): what a read and a write do to memory and to the host's answers. -/

namespace Sys2Proof.Machine

/-! ### ConsolePoll (R86) -/

theorem consolePoll_byte {s : State} {b : Byte} {rest : List (Option Byte)} (h : s.console = some b :: rest) :
    consolePoll s = (some b, { s with console := rest }) := by
  simp [consolePoll, nextAnswer, h]

theorem consolePoll_none {s : State} (h : NoByteNext s) :
    consolePoll s = (none, { s with console := s.console.tail }) := by
  rcases nextAnswer_cases s with ⟨b, rest, hc, _⟩ | ⟨_, hn⟩
  · exact absurd hc (h b rest)
  · exact hn

/-! ### Bytes kept -/

/-- A step whose memory is that of one word write keeps every byte outside the word. -/
theorem memKeptBut_of_write {s t : State} {a v : Word} (h : t.mem = s.mem.write a v) : MemKeptBut [a] s t := by
  intro k hk
  obtain ⟨h0, h1⟩ := hk a (List.mem_singleton_self a)
  rw [h, readByte_write_ne s.mem h0 h1]

/-- Two steps in a row keep every byte outside the words of both. -/
theorem MemKeptBut.append {s t u : State} {as bs : List Word} (hst : MemKeptBut as s t) (htu : MemKeptBut bs t u) :
    MemKeptBut (as ++ bs) s u := by
  intro k hk
  calc u.mem.readByte k
      _ = t.mem.readByte k := htu k fun a ha => hk a (List.mem_append_right as ha)
      _ = s.mem.readByte k := hst k fun a ha => hk a (List.mem_append_left bs ha)

/-! ### MemRead (R31, R34) -/

/-- The polling read that finds a byte: KBSR is written, then KBDR. -/
theorem readEffect_kbsr_byte {s : State} {b : Byte} {rest : List (Option Byte)} (h : s.console = some b :: rest) :
    ReadEffect Config.kbsrAddr s (memRead Config.kbsrAddr s).1 (memRead Config.kbsrAddr s).2 := by
  rw [memRead_kbsr_byte h, ReadEffect, consolePoll_byte h]
  refine ⟨fun hne => absurd rfl hne, fun c _ hc => ?_, fun _ hn => (nomatch hn)⟩
  obtain rfl : b = c := Option.some.inj hc
  have hkbsr : MemKeptBut [Config.kbsrAddr] s (memWrite Config.kbsrAddr 0x8000 s) :=
    memKeptBut_of_write (v := 0x8000) rfl
  refine ⟨rfl, ?_, ?_, hkbsr.append (memKeptBut_of_write (v := zext b) rfl), rfl⟩
  · exact (read_write_ne _ (zext b) kbsr_ne_kbdr).trans (read_write_same s.mem Config.kbsrAddr 0x8000)
  · exact read_write_same _ Config.kbdrAddr (zext b)

/-- The polling read that finds no byte: only KBSR is written. -/
theorem readEffect_kbsr_none {s : State} (h : NoByteNext s) :
    ReadEffect Config.kbsrAddr s (memRead Config.kbsrAddr s).1 (memRead Config.kbsrAddr s).2 := by
  rw [memRead_kbsr_none h, ReadEffect, consolePoll_none h]
  refine ⟨fun hne => absurd rfl hne, fun _ _ hb => (nomatch hb), fun _ _ => ?_⟩
  exact ⟨rfl, read_write_same s.mem Config.kbsrAddr 0x0000, memKeptBut_of_write (v := 0x0000) rfl, rfl⟩

/-- What a memory read gives, and does to memory and the console, at every address. -/
theorem readEffect_memRead (a : Word) (s : State) : ReadEffect a s (memRead a s).1 (memRead a s).2 := by
  rcases memRead_cases a s with ⟨ha, e⟩ | ⟨rfl, b, rest, hc, _⟩ | ⟨rfl, hn, _⟩
  · rw [e]
    exact ⟨fun _ => ⟨rfl, fun _ => rfl, rfl⟩, fun _ h => absurd h ha, fun h => absurd h ha⟩
  · exact readEffect_kbsr_byte hc
  · exact readEffect_kbsr_none hn

/-- A memory read keeps the run state, the hold and the host's abort. -/
theorem controlKept_memRead (a : Word) (s : State) : ControlKept s (memRead a s).2 :=
  ⟨memRead_run a s, memRead_hold a s, memRead_abortIn a s⟩

/-- Settles O19: `readEffect_memRead` for the word, memory and the console, the frame lemmas for the rest. -/
theorem memReadRule : Obligations.MemReadRule := by
  intro a s
  exact ⟨readEffect_memRead a s, fun r _ => readReg_memRead a s r, memRead_pc a s, memRead_cond a s,
    memRead_output a s, controlKept_memRead a s⟩

/-! ### MemWrite (R32) -/

/-- Settles O20: MemWrite is the memory's own word write. -/
theorem memWriteIsPlainStore : Obligations.MemWriteIsPlainStore := by
  intro a v s
  exact ⟨read_write_same s.mem a v, memKeptBut_of_write rfl, fun b hb => read_write_ne s.mem v hb, rfl⟩

end Sys2Proof.Machine
end

section
/-! Fields and signals of a word (R51, R60), fields under a mask, and fields packed side by side. -/

namespace Sys2Proof

/-- Settles O4: masking to `width` bits is the remainder modulo 2^width, which `setWidth` takes. -/
theorem fieldIsShiftThenMask : Obligations.FieldIsShiftThenMask := by
  intro w lo width
  refine ⟨?_, field_eq_slice w lo width⟩
  rw [field, BitVec.toNat_setWidth, BitVec.toNat_ushiftRight, Nat.and_two_pow_sub_one_eq_mod]

/-- The opcodes that end in a fatal error are RTI's and RES's (R60). -/
theorem fatalOpcode_iff (w : Word) : fatalOpcode w = true ↔ opcode w = 0x8 ∨ opcode w = 0xD := by
  simp [fatalOpcode]

/-- Settles O5: every signal is a field, and a field is a slice. -/
theorem decoderSignals : Obligations.DecoderSignals := by
  intro w
  refine ⟨opcode_eq_slice w, field_eq_slice w 9 3, field_eq_slice w 6 3, field_eq_slice w 0 3, immSel_eq_bit w,
    jsrLong_eq_bit w, congrArg sext (field_eq_slice w 0 5), congrArg sext (field_eq_slice w 0 6),
    congrArg sext (field_eq_slice w 0 9), congrArg sext (field_eq_slice w 0 11), trapvect8_eq_slice w, ?_⟩
  rw [fatalOpcode_iff, opcode_eq_slice]

/-! ### Fields under a mask and side by side -/

theorem field_and (w m : Word) (lo len : Nat) : field (w &&& m) lo len = field w lo len &&& field m lo len := by
  rw [field, BitVec.ushiftRight_and_distrib, BitVec.setWidth_and]
  rfl

/-- Words that agree under a mask agree on every field the mask covers. -/
theorem field_eq_of_mask {w w' m : Word} (h : w &&& m = w' &&& m) (lo len : Nat)
    (hm : field m lo len = BitVec.allOnes len) : field w' lo len = field w lo len := by
  have hf := congrArg (field · lo len) h
  simp only [field_and, hm, BitVec.and_allOnes] at hf
  exact hf.symm

/-- A mask of all ones covers the whole word. -/
theorem eq_of_fullMask {w w' : Word} (h : w &&& 0xFFFF = w' &&& 0xFFFF) : w' = w := by
  simpa [field] using field_eq_of_mask h 0 16 rfl

/-- Two adjacent fields side by side are one field. -/
theorem field_append_field (w : Word) (lo a b : Nat) : field w (lo + b) a ++ field w lo b = field w lo (a + b) := by
  refine BitVec.eq_of_getLsbD_eq fun i hi => ?_
  rw [BitVec.getLsbD_append, field_getLsbD, field_getLsbD, field_getLsbD, decide_eq_true hi]
  split
  · next h => rw [decide_eq_true h]
  · rw [decide_eq_true (by omega), show lo + b + (i - b) = lo + i by omega]

/-- The fixed bits `x` and the field below them, packed, are the word that has `x` above that field. -/
theorem pack_append_field {a b : Nat} {w : Word} {x : BitVec a} (hx : field w b a = x) (h : a + b = 16) :
    pack (x ++ field w 0 b) h = w := by
  have hall : x ++ field w 0 b = field w 0 (a + b) := by
    rw [← hx, ← field_append_field, Nat.zero_add]
  refine BitVec.eq_of_getLsbD_eq fun i hi => ?_
  rw [hall, pack_getLsbD, field_getLsbD, decide_eq_true (h ▸ hi), Bool.true_and, Nat.zero_add]

end Sys2Proof
end

section
/-! Unused bits (R52, R54): which formats have them, and that decoding does not see them; and the fetch (R57). -/

namespace Sys2Proof.Machine

/-! ### The formats with unused bits (R52) -/

/-- The TRAP rows all leave bits 11:8 unused. -/
theorem usedMask_decodeTrap (w : Word) : usedMask (decodeTrap w) = 0xF0FF := by
  unfold decodeTrap
  split_ifs <;> rfl

theorem decode_of_trap {w : Word} (ho : opcode w = 0xF) : decode w = decodeTrap w := by
  simp [decode, ho]

/-- The formats with unused bits, by the signals that select them; every other format reads the whole word (R52). -/
theorem usedMask_decode_cases (w : Word) :
    usedMask (decode w) = 0xFFFF ∨
    (usedMask (decode w) = 0xFFE7 ∧ immSel w = false ∧ (opcode w = 0x1 ∨ opcode w = 0x5)) ∨
    (usedMask (decode w) = 0xFFC0 ∧ opcode w = 0x9) ∨
    (usedMask (decode w) = 0xF1C0 ∧ opcode w = 0xC) ∨
    (usedMask (decode w) = 0xF9C0 ∧ jsrLong w = false ∧ opcode w = 0x4) ∨
    (usedMask (decode w) = 0xF000 ∧ fatalOpcode w = true) ∨
    (usedMask (decode w) = 0xF0FF ∧ opcode w = 0xF) := by
  rcases opcode_cases (opcode w) with
    ho | ho | ho | ho | ho | ho | ho | ho | ho | ho | ho | ho | ho | ho | ho | ho
  · simp [decode, ho, usedMask]
  · cases h : immSel w <;> simp [decode, ho, h, usedMask]
  · simp [decode, ho, usedMask]
  · simp [decode, ho, usedMask]
  · cases h : jsrLong w <;> simp [decode, ho, h, usedMask]
  · cases h : immSel w <;> simp [decode, ho, h, usedMask]
  · simp [decode, ho, usedMask]
  · simp [decode, ho, usedMask]
  · simp [decode, ho, usedMask, fatalOpcode]
  · simp [decode, ho, usedMask]
  · simp [decode, ho, usedMask]
  · simp [decode, ho, usedMask]
  · simp [decode, ho, usedMask]
  · simp [decode, ho, usedMask, fatalOpcode]
  · simp [decode, ho, usedMask]
  · simp [decode_of_trap ho, ho, usedMask_decodeTrap]

/-! ### Words that agree on the used bits (R54) -/

section
variable {w w' : Word}

/-- ADD and AND with two registers: bits 4:3 are unused. -/
theorem decode_congr_regOperate (h : w &&& 0xFFE7 = w' &&& 0xFFE7) (hi : immSel w = false)
    (ho : opcode w = 0x1 ∨ opcode w = 0x5) : decode w' = decode w := by
  have hop : opcode w' = opcode w := field_eq_of_mask h 12 4 rfl
  have him : immSel w' = false := by rw [← hi, immSel, immSel, field_eq_of_mask h 5 1 rfl]
  have hdr : dr w' = dr w := field_eq_of_mask h 9 3 rfl
  have hsr1 : sr1 w' = sr1 w := field_eq_of_mask h 6 3 rfl
  have hsr2 : sr2 w' = sr2 w := field_eq_of_mask h 0 3 rfl
  rcases ho with ho | ho <;> simp [decode, hop, ho, him, hi, hdr, hsr1, hsr2]

/-- NOT: bits 5:0 are unused. -/
theorem decode_congr_not (h : w &&& 0xFFC0 = w' &&& 0xFFC0) (ho : opcode w = 0x9) : decode w' = decode w := by
  have hop : opcode w' = opcode w := field_eq_of_mask h 12 4 rfl
  have hdr : dr w' = dr w := field_eq_of_mask h 9 3 rfl
  have hsr : sr1 w' = sr1 w := field_eq_of_mask h 6 3 rfl
  simp [decode, hop, ho, hdr, hsr]

/-- JMP: bits 11:9 and 5:0 are unused. -/
theorem decode_congr_jmp (h : w &&& 0xF1C0 = w' &&& 0xF1C0) (ho : opcode w = 0xC) : decode w' = decode w := by
  have hop : opcode w' = opcode w := field_eq_of_mask h 12 4 rfl
  have hbase : sr1 w' = sr1 w := field_eq_of_mask h 6 3 rfl
  simp [decode, hop, ho, hbase]

/-- JSRR: bits 10:9 and 5:0 are unused. -/
theorem decode_congr_jsrr (h : w &&& 0xF9C0 = w' &&& 0xF9C0) (hj : jsrLong w = false) (ho : opcode w = 0x4) :
    decode w' = decode w := by
  have hop : opcode w' = opcode w := field_eq_of_mask h 12 4 rfl
  have hlong : jsrLong w' = false := by rw [← hj, jsrLong, jsrLong, field_eq_of_mask h 11 1 rfl]
  have hbase : sr1 w' = sr1 w := field_eq_of_mask h 6 3 rfl
  simp [decode, hop, ho, hlong, hj, hbase]

/-- A TRAP with a defined vector has that vector's row, whatever its other bits (R85). -/
theorem decodeTrap_congr (hv : trapvect8 w' = trapvect8 w) (hd : definedVector (trapvect8 w) = true) :
    decodeTrap w' = decodeTrap w := by
  simp only [definedVector, Bool.or_eq_true, beq_iff_eq] at hd
  rcases hd with ((((hd | hd) | hd) | hd) | hd) | hd <;> simp [decodeTrap, hv, hd]

end

/-! ### Words whose fatal error records them (R84, R95, R96, R98) -/

/-- RTI and RES: the instruction keeps the bits below the opcode, so the fatal error records the word. -/
theorem exec_decode_of_fatalOpcode {w : Word} (h : fatalOpcode w = true) (s : State) :
    exec (decode w) s = .next (raiseFatal .unimplementedOpcode w s) := by
  rcases (fatalOpcode_iff w).mp h with ho | ho
  · have hd : decode w = .rti (field w 0 12) := by simp [decode, ho]
    rw [hd, exec, execRti, encode, pack_append_field (x := 0x8#4) ho]
  · have hd : decode w = .res (field w 0 12) := by simp [decode, ho]
    rw [hd, exec, execRes, encode, pack_append_field (x := 0xD#4) ho]

/-- A TRAP with an unknown vector: R7 is written, and the fatal error records the word. -/
theorem exec_decode_of_unknownVector {w : Word} (ho : opcode w = 0xF) (hv : definedVector (trapvect8 w) = false)
    (s : State) : exec (decode w) s = .next (raiseFatal .unimplementedTrapVector w (trapEntry s)) := by
  have hhigh : field w 8 8 = 0xF#4 ++ field w 8 4 :=
    (field_append_field w 8 4 4).symm.trans (congrArg (· ++ field w 8 4) ho)
  simp only [definedVector, Bool.or_eq_false_iff, beq_eq_false_iff_ne] at hv
  have hd : decode w = .trap (field w 8 4) (trapvect8 w) := by
    simp only [decode_of_trap ho, decodeTrap, hv, if_false]
  have ht : trapDispatch (trapvect8 w) w (trapEntry s) = raiseFatal .unimplementedTrapVector w (trapEntry s) := by
    simp only [trapDispatch, hv, if_false]
  rw [hd, exec, execTrap, encode, trapvect8, pack_append_field hhigh, ← trapvect8, ht]

/-- Settles O6: words that agree on the used bits have the same format, whose fields they share; RTI, RES and an unknown
vector raise the same fatal error on both. -/
theorem unusedBitsDoNotMatter : Obligations.UnusedBitsDoNotMatter := by
  intro w w' h
  rcases usedMask_decode_cases w with
    hm | ⟨hm, hi, ho⟩ | ⟨hm, ho⟩ | ⟨hm, ho⟩ | ⟨hm, hj, ho⟩ | ⟨hm, hf⟩ | ⟨hm, ho⟩ <;> rw [hm] at h
  · exact .inl (by rw [eq_of_fullMask h])
  · exact .inl (decode_congr_regOperate h hi ho)
  · exact .inl (decode_congr_not h ho)
  · exact .inl (decode_congr_jmp h ho)
  · exact .inl (decode_congr_jsrr h hj ho)
  · have hop : opcode w' = opcode w := field_eq_of_mask h 12 4 rfl
    have hf' : fatalOpcode w' = true := by rwa [fatalOpcode_iff, hop, ← fatalOpcode_iff]
    exact .inr ⟨.unimplementedOpcode, fun s => ⟨s, exec_decode_of_fatalOpcode hf s, exec_decode_of_fatalOpcode hf' s⟩⟩
  · have hop : opcode w' = opcode w := field_eq_of_mask h 12 4 rfl
    have hvect : trapvect8 w' = trapvect8 w := field_eq_of_mask h 0 8 rfl
    cases hd : definedVector (trapvect8 w) with
    | true => exact .inl (by rw [decode_of_trap ho, decode_of_trap (hop.trans ho), decodeTrap_congr hvect hd])
    | false =>
      exact .inr ⟨.unimplementedTrapVector, fun s => ⟨trapEntry s, exec_decode_of_unknownVector ho hd s,
        exec_decode_of_unknownVector (hop.trans ho) (hvect ▸ hd) s⟩⟩

/-! ### The fetch (R57) -/

/-- Settles O21: what a MemRead at PC does, and PC written after it. -/
theorem fetchRule : Obligations.FetchRule := by
  intro s
  exact ⟨readEffect_memRead s.pc s, BitVec.toNat_add s.pc 1, fun r _ => readReg_memRead s.pc s r,
    memRead_cond s.pc s, memRead_output s.pc s, controlKept_memRead s.pc s⟩

end Sys2Proof.Machine
end

section
/-! The operate instructions ADD, AND and NOT (R64-R69): the alu, their words, and what writing a result leaves unchanged. -/

namespace Sys2Proof.Machine

/-! ### The alu (R64) -/

/-- The sum drops its carry out of bit 15. -/
theorem toNat_alu_add (a b : Word) : (alu .add a b).toNat = (a.toNat + b.toNat) % 65536 := BitVec.toNat_add a b

theorem getLsbD_alu_and (a b : Word) (k : Nat) : (alu .and a b).getLsbD k = (a.getLsbD k && b.getLsbD k) :=
  BitVec.getLsbD_and

/-- The complement is the distance to the largest word, whatever the second operand. -/
theorem toNat_alu_not (a b : Word) : (alu .not a b).toNat = 65535 - a.toNat := BitVec.toNat_not

/-- Settles O8: the three operations one by one. -/
theorem aluOperations : Obligations.AluOperations := by
  intro a b
  exact ⟨toNat_alu_add a b, getLsbD_alu_and a b, toNat_alu_not a b⟩

/-! ### The words (R59, R60) -/

theorem dr_eq_slice (w : Word) : dr w = w.extractLsb' 9 3 := field_eq_slice w 9 3

theorem sr1_eq_slice (w : Word) : sr1 w = w.extractLsb' 6 3 := field_eq_slice w 6 3

theorem sr2_eq_slice (w : Word) : sr2 w = w.extractLsb' 0 3 := field_eq_slice w 0 3

/-- Opcode 0001: bit 5 chooses between ADD's two forms. -/
theorem decode_of_add {w : Word} (ho : w.extractLsb' 12 4 = 0x1) :
    decode w = if w.getLsbD 5 then .addImm (w.extractLsb' 9 3) (w.extractLsb' 6 3) (w.extractLsb' 0 5)
      else .addReg (w.extractLsb' 9 3) (w.extractLsb' 6 3) (w.extractLsb' 0 3) := by
  rw [← opcode_eq_slice] at ho
  simp [decode, ho, immSel_eq_bit, dr_eq_slice, sr1_eq_slice, sr2_eq_slice, field_eq_slice]

/-- Opcode 0101: bit 5 chooses between AND's two forms. -/
theorem decode_of_and {w : Word} (ho : w.extractLsb' 12 4 = 0x5) :
    decode w = if w.getLsbD 5 then .andImm (w.extractLsb' 9 3) (w.extractLsb' 6 3) (w.extractLsb' 0 5)
      else .andReg (w.extractLsb' 9 3) (w.extractLsb' 6 3) (w.extractLsb' 0 3) := by
  rw [← opcode_eq_slice] at ho
  simp [decode, ho, immSel_eq_bit, dr_eq_slice, sr1_eq_slice, sr2_eq_slice, field_eq_slice]

/-- Opcode 1001: bits 5:0 are not looked at. -/
theorem decode_of_not {w : Word} (ho : w.extractLsb' 12 4 = 0x9) :
    decode w = .not (w.extractLsb' 9 3) (w.extractLsb' 6 3) := by
  rw [← opcode_eq_slice] at ho
  simp [decode, ho, dr_eq_slice, sr1_eq_slice]

/-! ### The result (R21) -/

theorem readReg_writeResult_same (s : State) (r : RegIdx) (v : Word) : (s.writeResult r v).readReg r = v := by
  rw [readReg_writeResult, readReg_writeReg_same]

theorem regsKept_writeResult (s : State) (r : RegIdx) (v : Word) : RegsKept [r] s (s.writeResult r v) := by
  intro j hj
  rw [readReg_writeResult, readReg_writeReg_ne s v (List.ne_of_not_mem_cons hj)]

/-- Writing a result touches its register and COND only. -/
theorem writeResult_frame (s : State) (r : RegIdx) (v : Word) :
    RegsKept [r] s (s.writeResult r v) ∧ (s.writeResult r v).pc = s.pc ∧ MemKept s (s.writeResult r v) ∧
      ConsoleKept s (s.writeResult r v) ∧ ControlKept s (s.writeResult r v) :=
  ⟨regsKept_writeResult s r v, writeResult_pc s r v, fun _ => rfl, ⟨rfl, rfl⟩, ⟨rfl, rfl, rfl⟩⟩

/-! ### The instructions (R65-R69) -/

/-- The shape of R65-R68: the result is formed from the state before the write, so DR may be a source. -/
theorem operate_effect (op : AluOp) (dr sr1 : RegIdx) (o : Operand) (s : State) :
    (operate op dr sr1 o s).readReg dr = alu op (s.readReg sr1) (o.value s) ∧
      (operate op dr sr1 o s).cond = condOf (alu op (s.readReg sr1) (o.value s)) ∧
      RegsKept [dr] s (operate op dr sr1 o s) ∧ (operate op dr sr1 o s).pc = s.pc ∧
      MemKept s (operate op dr sr1 o s) ∧ ConsoleKept s (operate op dr sr1 o s) ∧
      ControlKept s (operate op dr sr1 o s) :=
  ⟨readReg_writeResult_same s dr _, writeResult_cond s dr _, writeResult_frame s dr _⟩

/-- Settles O25: bit 5 clear chooses the register form, which is `operate` on SR2. -/
theorem addRegisterForm : Obligations.AddRegisterForm := by
  refine ⟨fun w ho hbit => ?_, fun dr sr1 sr2 s => ⟨_, rfl, operate_effect .add dr sr1 (.register sr2) s⟩⟩
  rw [decode_of_add ho, hbit, if_neg Bool.false_ne_true]

/-- Settles O26: bit 5 set chooses the immediate form, which is `operate` on sext_5(imm5). -/
theorem addImmediateForm : Obligations.AddImmediateForm := by
  refine ⟨fun w ho hbit => ?_, fun dr sr1 imm5 s => ⟨_, rfl, operate_effect .add dr sr1 (.immediate imm5) s⟩⟩
  rw [decode_of_add ho, if_pos hbit]

/-- Settles O27: as O25, with the alu's AND. -/
theorem andRegisterForm : Obligations.AndRegisterForm := by
  refine ⟨fun w ho hbit => ?_, fun dr sr1 sr2 s => ⟨_, rfl, operate_effect .and dr sr1 (.register sr2) s⟩⟩
  rw [decode_of_and ho, hbit, if_neg Bool.false_ne_true]

/-- Settles O28: as O26, with the alu's AND. -/
theorem andImmediateForm : Obligations.AndImmediateForm := by
  refine ⟨fun w ho hbit => ?_, fun dr sr1 imm5 s => ⟨_, rfl, operate_effect .and dr sr1 (.immediate imm5) s⟩⟩
  rw [decode_of_and ho, if_pos hbit]

/-- Settles O29: the alu's complement is 65535 - SR, and COND is the flag of what DR then holds. -/
theorem notComplements : Obligations.NotComplements := by
  refine ⟨fun w ho => decode_of_not ho, fun dr sr s => ?_⟩
  have hval : ((s.writeResult dr (alu .not (s.readReg sr) 0)).readReg dr).toNat = 65535 - (s.readReg sr).toNat := by
    rw [readReg_writeResult_same, toNat_alu_not]
  exact ⟨s.writeResult dr (alu .not (s.readReg sr) 0), rfl, hval, writeResult_cond_readReg s dr _,
    writeResult_frame s dr _⟩

end Sys2Proof.Machine
end

section
/-! The control transfers BR, JMP, JSR and JSRR (R70-R74): their words, the jump and the link that they are made of. -/

namespace Sys2Proof.Machine

/-! ### The words (R59, R60) -/

theorem decode_of_br {w : Word} (ho : w.extractLsb' 12 4 = 0x0) :
    decode w = .br (w.extractLsb' 9 3) (w.extractLsb' 0 9) := by
  rw [← opcode_eq_slice] at ho
  simp [decode, ho, dr_eq_slice, field_eq_slice]

/-- Opcode 1100: bits 11:9 and 5:0 are not looked at. -/
theorem decode_of_jmp {w : Word} (ho : w.extractLsb' 12 4 = 0xC) : decode w = .jmp (w.extractLsb' 6 3) := by
  rw [← opcode_eq_slice] at ho
  simp [decode, ho, sr1_eq_slice]

/-- Opcode 0100: bit 11 chooses between JSR and JSRR. -/
theorem decode_of_jsr {w : Word} (ho : w.extractLsb' 12 4 = 0x4) :
    decode w = if w.getLsbD 11 then .jsr (w.extractLsb' 0 11) else .jsrr (w.extractLsb' 6 3) := by
  rw [← opcode_eq_slice] at ho
  simp [decode, ho, jsrLong_eq_bit, sr1_eq_slice, field_eq_slice]

/-! ### The jump and the link -/

/-- A jump touches PC only. -/
theorem setPc_frame (s : State) (v : Word) :
    (s.setPc v).cond = s.cond ∧ RegsKept [] s (s.setPc v) ∧ MemKept s (s.setPc v) ∧ ConsoleKept s (s.setPc v) ∧
      ControlKept s (s.setPc v) :=
  ⟨setPc_cond s v, fun r _ => readReg_setPc s v r, fun _ => rfl, ⟨rfl, rfl⟩, ⟨rfl, rfl, rfl⟩⟩

/-- After the link R7 holds the return address, and every other register what it held. -/
theorem readReg_linkR7_eq_ite (s : State) (r : RegIdx) :
    (linkR7 s).readReg r = if r = 7 then s.pc else s.readReg r := by
  rw [readReg_linkR7]
  split
  · next h => rw [h, readReg_writeReg_same]
  · next h => exact readReg_writeReg_ne s s.pc h

/-- A call links through R7, goes on at its target and touches nothing else (R73, R74). -/
theorem linkR7_setPc_effect (s : State) (v : Word) :
    ((linkR7 s).setPc v).readReg 7 = s.pc ∧ ((linkR7 s).setPc v).pc = v ∧
      ((linkR7 s).setPc v).cond = s.cond ∧ RegsKept [7] s ((linkR7 s).setPc v) ∧
      MemKept s ((linkR7 s).setPc v) ∧ ConsoleKept s ((linkR7 s).setPc v) ∧ ControlKept s ((linkR7 s).setPc v) := by
  refine ⟨?_, rfl, rfl, fun r hr => ?_, fun _ => rfl, ⟨rfl, rfl⟩, ⟨rfl, rfl, rfl⟩⟩
  · rw [readReg_setPc, readReg_linkR7_eq_ite, if_pos rfl]
  · rw [readReg_setPc, readReg_linkR7_eq_ite, if_neg (List.ne_of_not_mem_cons hr)]

/-! ### The branch (R70, R71) -/

/-- A branch is taken exactly when it requests a flag that COND holds. -/
theorem branchTaken_iff (nzp cond : BitVec 3) : branchTaken nzp cond = true ↔ nzp &&& cond ≠ 0b000 := bne_iff_ne

/-- Where no flag is requested, or none is set, a branch is not taken. -/
theorem and_eq_zero_of_no_flag {nzp cond : BitVec 3} (h : nzp = 0b000 ∨ cond = 0b000) : nzp &&& cond = 0b000 := by
  rcases h with rfl | rfl
  · exact BitVec.zero_and
  · exact BitVec.and_zero

theorem exec_br_of_taken {nzp : BitVec 3} {s : State} (h : nzp &&& s.cond ≠ 0b000) (off9 : BitVec 9) :
    exec (.br nzp off9) s = .next (s.setPc (s.pc + off9.signExtend 16)) :=
  congrArg Host.Outcome.next (if_pos ((branchTaken_iff nzp s.cond).mpr h))

/-- A branch that is not taken is a jump to where PC already is. -/
theorem exec_br_of_not_taken {nzp : BitVec 3} {s : State} (h : nzp &&& s.cond = 0b000) (off9 : BitVec 9) :
    exec (.br nzp off9) s = .next (s.setPc s.pc) :=
  congrArg Host.Outcome.next (if_neg fun ht => (branchTaken_iff nzp s.cond).mp ht h)

/-! ### The instructions (R70-R74) -/

/-- Settles O30: taken or not, BR is a jump; with no flag requested or none set, it is not taken. -/
theorem branchOnCondition : Obligations.BranchOnCondition := by
  refine ⟨fun w ho => decode_of_br ho, fun nzp off9 s => ?_⟩
  by_cases h : nzp &&& s.cond = 0b000
  · exact ⟨_, exec_br_of_not_taken h off9, fun hne => absurd h hne, fun _ => rfl, fun _ => rfl, setPc_frame s s.pc⟩
  · exact ⟨_, exec_br_of_taken h off9, fun _ => rfl, fun hz => absurd hz h,
      fun hno => absurd (and_eq_zero_of_no_flag hno) h, setPc_frame s _⟩

/-- Settles O31: RET is the word of opcode 1100 whose base field is 7. -/
theorem jumpToBase : Obligations.JumpToBase :=
  ⟨fun _ ho => decode_of_jmp ho, decode_of_jmp (w := 0xC1C0) rfl,
    fun baser s => ⟨s.setPc (s.readReg baser), rfl, rfl, setPc_frame s _⟩⟩

/-- Settles O32: bit 11 set chooses JSR, a call to PC + sext_11(offset). -/
theorem jumpSubroutine : Obligations.JumpSubroutine := by
  refine ⟨fun w ho hbit => ?_, fun off11 s => ⟨_, rfl, linkR7_setPc_effect s (s.pc + off11.signExtend 16)⟩⟩
  rw [decode_of_jsr ho, if_pos hbit]

/-- Settles O33: bit 11 clear chooses JSRR, a call to the base register's value after the link. -/
theorem jumpSubroutineRegister : Obligations.JumpSubroutineRegister := by
  refine ⟨fun w ho hbit => ?_, fun baser s => ?_⟩
  · rw [decode_of_jsr ho, hbit, if_neg Bool.false_ne_true]
  · rw [← readReg_linkR7_eq_ite s baser]
    exact ⟨_, rfl, linkR7_setPc_effect s ((linkR7 s).readReg baser)⟩

end Sys2Proof.Machine
end

section
/-! The load_store_unit (R76-R83): the words of LD, LDI, LDR, LEA, ST, STI and STR, and what a load and a store do. -/

namespace Sys2Proof.Machine

/-! ### The words (R59, R60) -/

section
variable {w : Word}

theorem decode_of_ld (ho : w.extractLsb' 12 4 = 0x2) : decode w = .ld (w.extractLsb' 9 3) (w.extractLsb' 0 9) := by
  rw [← opcode_eq_slice] at ho
  simp [decode, ho, dr_eq_slice, field_eq_slice]

theorem decode_of_ldi (ho : w.extractLsb' 12 4 = 0xA) : decode w = .ldi (w.extractLsb' 9 3) (w.extractLsb' 0 9) := by
  rw [← opcode_eq_slice] at ho
  simp [decode, ho, dr_eq_slice, field_eq_slice]

theorem decode_of_ldr (ho : w.extractLsb' 12 4 = 0x6) :
    decode w = .ldr (w.extractLsb' 9 3) (w.extractLsb' 6 3) (w.extractLsb' 0 6) := by
  rw [← opcode_eq_slice] at ho
  simp [decode, ho, dr_eq_slice, sr1_eq_slice, field_eq_slice]

theorem decode_of_lea (ho : w.extractLsb' 12 4 = 0xE) : decode w = .lea (w.extractLsb' 9 3) (w.extractLsb' 0 9) := by
  rw [← opcode_eq_slice] at ho
  simp [decode, ho, dr_eq_slice, field_eq_slice]

/-- The field of DR holds a store's SR. -/
theorem decode_of_st (ho : w.extractLsb' 12 4 = 0x3) : decode w = .st (w.extractLsb' 9 3) (w.extractLsb' 0 9) := by
  rw [← opcode_eq_slice] at ho
  simp [decode, ho, dr_eq_slice, field_eq_slice]

theorem decode_of_sti (ho : w.extractLsb' 12 4 = 0xB) : decode w = .sti (w.extractLsb' 9 3) (w.extractLsb' 0 9) := by
  rw [← opcode_eq_slice] at ho
  simp [decode, ho, dr_eq_slice, field_eq_slice]

theorem decode_of_str (ho : w.extractLsb' 12 4 = 0x7) :
    decode w = .str (w.extractLsb' 9 3) (w.extractLsb' 6 3) (w.extractLsb' 0 6) := by
  rw [← opcode_eq_slice] at ho
  simp [decode, ho, dr_eq_slice, sr1_eq_slice, field_eq_slice]

end

/-! ### After a memory read (R76)

A MemRead keeps every register, PC, the output and the control fields, so what follows it keeps of its state what it keeps of
the state before the read. -/

theorem frame_memRead_left_iff (a : Word) {but : List RegIdx} {s t : State} :
    (RegsKept but (memRead a s).2 t ∧ t.pc = (memRead a s).2.pc ∧ t.output = (memRead a s).2.output ∧
      ControlKept (memRead a s).2 t) ↔
    (RegsKept but s t ∧ t.pc = s.pc ∧ t.output = s.output ∧ ControlKept s t) := by
  simp only [RegsKept, ControlKept, readReg_memRead, memRead_pc, memRead_output, memRead_run, memRead_hold,
    memRead_abortIn]

/-- Writing a result leaves memory and the host's answers as the read before it left them. -/
theorem readEffect_writeResult {a v : Word} {s t : State} (h : ReadEffect a s v t) (r : RegIdx) (x : Word) :
    ReadEffect a s v (t.writeResult r x) := h

/-! ### Loads (R77-R79) -/

theorem loadFrom_frame (ea : Word) (dr : RegIdx) (s : State) :
    RegsKept [dr] s (loadFrom ea dr s) ∧ (loadFrom ea dr s).pc = s.pc ∧ (loadFrom ea dr s).output = s.output ∧
      ControlKept s (loadFrom ea dr s) := by
  obtain ⟨hregs, hpc, -, ⟨hout, -⟩, hcontrol⟩ := writeResult_frame (memRead ea s).2 dr (memRead ea s).1
  exact (frame_memRead_left_iff ea).mp ⟨hregs, hpc, hout, hcontrol⟩

/-- What a load reads goes to DR, and its flag to COND. -/
theorem loadFrom_effect (ea : Word) (dr : RegIdx) (s : State) :
    ReadEffect ea s (memRead ea s).1 (loadFrom ea dr s) ∧ (loadFrom ea dr s).readReg dr = (memRead ea s).1 ∧
      (loadFrom ea dr s).cond = condOf (memRead ea s).1 :=
  ⟨readEffect_writeResult (readEffect_memRead ea s) dr _, readReg_writeResult_same _ dr _, writeResult_cond _ dr _⟩

/-- Settles O34: LD is a load at PC + sext_9(offset). -/
theorem loadPcRelative : Obligations.LoadPcRelative := by
  refine ⟨fun w ho => decode_of_ld ho, fun dr off9 s => ?_⟩
  obtain ⟨hread, hreg, hcond⟩ := loadFrom_effect (pcRelative off9 s) dr s
  exact ⟨loadFrom (pcRelative off9 s) dr s, _, rfl, hread, hreg, hcond, loadFrom_frame _ dr s⟩

/-- Settles O35: LDI is a load, in the state its pointer's read leaves, at that pointer. -/
theorem loadIndirect : Obligations.LoadIndirect := by
  refine ⟨fun w ho => decode_of_ldi ho, fun dr off9 s => ?_⟩
  have hptr : ReadEffect (pcRelative off9 s) s (indirect off9 s).1 (indirect off9 s).2 := readEffect_memRead _ s
  obtain ⟨hread, hreg, hcond⟩ := loadFrom_effect (indirect off9 s).1 dr (indirect off9 s).2
  exact ⟨loadFrom (indirect off9 s).1 dr (indirect off9 s).2, _, _, _, rfl, hptr, hread, hreg, hcond,
    (frame_memRead_left_iff (pcRelative off9 s)).mp (loadFrom_frame _ dr _)⟩

/-- Settles O36: LDR is a load at an address formed from the base before DR is written. -/
theorem loadBaseOffset : Obligations.LoadBaseOffset := by
  refine ⟨fun w ho => decode_of_ldr ho, fun dr baser off6 s => ?_⟩
  obtain ⟨hread, hreg, hcond⟩ := loadFrom_effect (baseOffset baser off6 s) dr s
  exact ⟨loadFrom (baseOffset baser off6 s) dr s, _, rfl, hread, hreg, hcond, loadFrom_frame _ dr s⟩

/-- Settles O37: LEA writes its address as a result and does nothing else. -/
theorem loadEffectiveAddress : Obligations.LoadEffectiveAddress :=
  ⟨fun _ ho => decode_of_lea ho, fun dr off9 s =>
    ⟨s.writeResult dr (pcRelative off9 s), rfl, readReg_writeResult_same s dr _, writeResult_cond s dr _,
      writeResult_frame s dr _⟩⟩

/-! ### Stores (R81-R83) -/

/-- A store touches its word only, at a device address as anywhere. -/
theorem storeTo_effect (ea : Word) (sr : RegIdx) (s : State) :
    (storeTo ea sr s).mem.read ea = s.readReg sr ∧ MemKeptBut [ea] s (storeTo ea sr s) ∧
      RegsKept [] s (storeTo ea sr s) ∧ (storeTo ea sr s).cond = s.cond ∧ (storeTo ea sr s).pc = s.pc ∧
      ConsoleKept s (storeTo ea sr s) ∧ ControlKept s (storeTo ea sr s) :=
  ⟨read_write_same s.mem ea _, memKeptBut_of_write rfl, fun r _ => readReg_memWrite s ea _ r, rfl, rfl, ⟨rfl, rfl⟩,
    ⟨rfl, rfl, rfl⟩⟩

/-- Settles O38: ST is a store at PC + sext_9(offset). -/
theorem storePcRelative : Obligations.StorePcRelative := by
  refine ⟨fun w ho => decode_of_st ho, fun sr off9 s => ?_⟩
  obtain ⟨hword, hframe⟩ := storeTo_effect (pcRelative off9 s) sr s
  exact ⟨storeTo (pcRelative off9 s) sr s, rfl, hword, rfl, hframe⟩

/-- Settles O40: STR is a store at base + sext_6(offset). -/
theorem storeBaseOffset : Obligations.StoreBaseOffset := by
  refine ⟨fun w ho => decode_of_str ho, fun sr baser off6 s => ?_⟩
  obtain ⟨hword, hframe⟩ := storeTo_effect (baseOffset baser off6 s) sr s
  exact ⟨storeTo (baseOffset baser off6 s) sr s, rfl, hword, rfl, hframe⟩

/-- Settles O39: STI is a store, in the state its pointer's read leaves, at that pointer; the read keeps SR. -/
theorem storeIndirect : Obligations.StoreIndirect := by
  refine ⟨fun w ho => decode_of_sti ho, fun sr off9 s => ?_⟩
  have hptr : ReadEffect (pcRelative off9 s) s (indirect off9 s).1 (indirect off9 s).2 := readEffect_memRead _ s
  obtain ⟨hword, hbytes, hregs, hcond, hpc, ⟨hout, hconsole⟩, hcontrol⟩ :=
    storeTo_effect (indirect off9 s).1 sr (indirect off9 s).2
  obtain ⟨hregs, hpc, hout, hcontrol⟩ :=
    (frame_memRead_left_iff (pcRelative off9 s)).mp ⟨hregs, hpc, hout, hcontrol⟩
  exact ⟨storeTo (indirect off9 s).1 sr (indirect off9 s).2, _, rfl, hptr, hword.trans (readReg_memRead _ s sr),
    hbytes, hconsole, hregs, hcond.trans (memRead_cond _ s), hpc, hout, hcontrol⟩

end Sys2Proof.Machine
end

section
/-! The trap_dispatcher (R84, R85, R88): the words of TRAP, what trap entry saves, and what OUT writes. -/

namespace Sys2Proof.Machine

/-! ### The words (R59, R60, R85) -/

/-- Opcode 1111: the vector chooses the row, and bits 11:8 are not looked at. -/
theorem decode_of_trapvect8_out {w : Word} (ho : w.extractLsb' 12 4 = 0xF) (hv : w.extractLsb' 0 8 = 0x21) :
    decode w = .trapOut := by
  rw [← opcode_eq_slice] at ho
  rw [← trapvect8_eq_slice] at hv
  simp [decode_of_trap ho, decodeTrap, hv]

/-! ### Trap entry (R84) -/

/-- Trap entry writes the same link as a call. -/
theorem trapEntry_eq_linkR7 (s : State) : trapEntry s = linkR7 s := rfl

theorem readReg_trapEntry_eq_ite (s : State) (r : RegIdx) :
    (trapEntry s).readReg r = if r = 7 then s.pc else s.readReg r := by
  rw [trapEntry_eq_linkR7, readReg_linkR7_eq_ite]

theorem readReg_trapEntry_link (s : State) : (trapEntry s).readReg 7 = s.pc := by
  rw [readReg_trapEntry_eq_ite, if_pos rfl]

theorem regsKept_trapEntry (s : State) : RegsKept [7] s (trapEntry s) := fun r hr => by
  rw [readReg_trapEntry_eq_ite, if_neg (List.ne_of_not_mem_cons hr)]

/-! ### OUT (R88) -/

/-- The field that OUT writes is a slice of R0, so bits 15:8 are ignored. -/
theorem routineOut_output (s : State) : (routineOut s).output = s.output ++ [(s.readReg 0).extractLsb' 0 8] :=
  congrArg (s.output ++ [·]) (field_eq_slice (s.readReg 0) 0 8)

theorem readReg_routineOut (s : State) (r : RegIdx) : (routineOut s).readReg r = s.readReg r := readReg_consoleWrite s _ r

/-- Settles O42: trap entry keeps R0, so the byte that OUT writes is that of the state before. -/
theorem trapOutWritesByte : Obligations.TrapOutWritesByte := by
  refine ⟨fun w ho hv => decode_of_trapvect8_out ho hv, fun s => ?_⟩
  have hr0 : (trapEntry s).readReg 0 = s.readReg 0 := regsKept_trapEntry s 0 (by decide)
  have hout : (routineOut (trapEntry s)).output = s.output ++ [(s.readReg 0).extractLsb' 0 8] := by
    rw [routineOut_output, hr0, trapEntry_output]
  have hregs : RegsKept [7] s (routineOut (trapEntry s)) := fun r hr =>
    (readReg_routineOut (trapEntry s) r).trans (regsKept_trapEntry s r hr)
  obtain ⟨hpc, hcond, hmem, -, -⟩ := routineFrame_out (trapEntry s)
  exact ⟨routineOut (trapEntry s), rfl, (readReg_routineOut _ 7).trans (readReg_trapEntry_link s), hout, rfl, hregs,
    hpc, hcond, fun k => congrArg (·.readByte k) hmem, ⟨rfl, rfl, rfl⟩⟩

end Sys2Proof.Machine
end

section
/-! The reserved opcodes RTI and RES (R95, R96): their words, and the fatal error each raises. -/

namespace Sys2Proof.Machine

section
variable {w : Word}

theorem decode_of_rti (ho : w.extractLsb' 12 4 = 0x8) : decode w = .rti (w.extractLsb' 0 12) := by
  rw [← opcode_eq_slice] at ho
  simp [decode, ho, field_eq_slice]

theorem decode_of_res (ho : w.extractLsb' 12 4 = 0xD) : decode w = .res (w.extractLsb' 0 12) := by
  rw [← opcode_eq_slice] at ho
  simp [decode, ho, field_eq_slice]

theorem fatalOpcode_iff_slice : fatalOpcode w = true ↔ w.extractLsb' 12 4 = 0x8 ∨ w.extractLsb' 12 4 = 0xD := by
  rw [fatalOpcode_iff, opcode_eq_slice]

end

/-- Settles O50: both opcodes are fatal, and the word of the error is the one decoded. -/
theorem reservedOpcodesAreFatal : Obligations.ReservedOpcodesAreFatal := by
  refine fun w s => ⟨fun ho => ⟨decode_of_rti ho, ?_⟩, fun ho => ⟨decode_of_res ho, ?_⟩⟩
  · rw [← decode_of_rti ho]
    exact exec_decode_of_fatalOpcode (fatalOpcode_iff_slice.mpr (.inl ho)) s
  · rw [← decode_of_res ho]
    exact exec_decode_of_fatalOpcode (fatalOpcode_iff_slice.mpr (.inr ho)) s

end Sys2Proof.Machine
end

section
/-! The image load (R113, R114): an image's bytes and its words, words written in a row, and images loaded in order. -/

namespace Sys2Proof.Machine

/-! ### The bytes of an image (R113) -/

theorem bigEndian_bytes (w : Word) : bigEndian ((w >>> 8).setWidth 8) (w.setWidth 8) = w :=
  pack_append_field (b := 8) rfl rfl

/-- The loader reads back the words an image was made of. -/
@[simp] theorem imageWords_imageBytes (ws : List Word) : imageWords (imageBytes ws) = some ws := by
  induction ws with
  | nil => rfl
  | cons w ws ih =>
    calc imageWords (imageBytes (w :: ws))
      _ = (imageWords (imageBytes ws)).map (bigEndian ((w >>> 8).setWidth 8) (w.setWidth 8) :: ·) := rfl
      _ = some (w :: ws) := by rw [ih, bigEndian_bytes, Option.map_some]

/-- The load of an image with an origin is the load of its words from that origin on. -/
theorem loadImage_imageBytes (policy : LoaderPolicy) (m : Mem) (origin : Word) (ws : List Word) :
    loadImage policy m (some (imageBytes (origin :: ws))) = loadWords policy m origin ws := by
  rw [loadImage, imageWords_imageBytes]

theorem loadWords_of_le {origin : Word} {ws : List Word} (h : ws.length ≤ roomAbove origin) (policy : LoaderPolicy)
    (m : Mem) : loadWords policy m origin ws = .loaded (m.writeWords origin ws) := if_pos h

/-! ### Words in a row -/

theorem add_ofNat_succ (a : Word) (i : Nat) : a + BitVec.ofNat 16 (i + 1) = a + 1 + BitVec.ofNat 16 i := by
  bv_omega

/-- Words written in a row leave every word at another address alone, wrapped or not (R30). -/
theorem read_writeWords_of_ne (m : Mem) {a b : Word} {ws : List Word}
    (h : ∀ i < ws.length, b ≠ a + BitVec.ofNat 16 i) : (m.writeWords a ws).read b = m.read b := by
  induction ws generalizing m a with
  | nil => rfl
  | cons w ws ih =>
    have hhead : b ≠ a := by simpa using h 0 (Nat.zero_lt_succ _)
    have htail : ∀ i < ws.length, b ≠ a + 1 + BitVec.ofNat 16 i := fun i hi =>
      add_ofNat_succ a i ▸ h (i + 1) (Nat.succ_lt_succ hi)
    exact (ih (m.write a w) htail).trans (read_write_ne m w hhead)

/-- Words written in a row all stay, where they are too few to come round to the first one's address again. -/
theorem read_writeWords_getElem (m : Mem) (a : Word) {ws : List Word} (hlen : ws.length ≤ 65536) {i : Nat}
    (hi : i < ws.length) : (m.writeWords a ws).read (a + BitVec.ofNat 16 i) = ws[i] := by
  induction ws generalizing m a i with
  | nil => exact absurd hi (Nat.not_lt_zero i)
  | cons w ws ih =>
    rw [List.length_cons] at hlen hi
    cases i with
    | zero =>
      have hlater : ∀ j < ws.length, a ≠ a + 1 + BitVec.ofNat 16 j := fun j hj => by bv_omega
      rw [show a + BitVec.ofNat 16 0 = a from BitVec.add_zero a]
      exact (read_writeWords_of_ne (m.write a w) hlater).trans (read_write_same m a w)
    | succ i =>
      rw [add_ofNat_succ]
      exact ih (m.write a w) (a + 1) (Nat.le_of_succ_le hlen) (Nat.lt_of_succ_lt_succ hi)

/-! ### Images in order (R114) -/

theorem loadImages_singleton (policy : LoaderPolicy) (m : Mem) (image : Option (List Byte)) :
    loadImages policy m [image] = loadImage policy m image := by
  rw [loadImages]
  cases loadImage policy m image <;> rfl

theorem loadImages_cons_of_loaded {policy : LoaderPolicy} {m m' : Mem} {image : Option (List Byte)}
    (h : loadImage policy m image = .loaded m') (rest : List (Option (List Byte))) :
    loadImages policy m (image :: rest) = loadImages policy m' rest := by
  rw [loadImages, h]

/-- A list of images loads only where its first image does, and the others on top of it. -/
theorem loadImages_cons_eq_loaded {policy : LoaderPolicy} {m m1 : Mem} {image : Option (List Byte)}
    {rest : List (Option (List Byte))} (h : loadImages policy m (image :: rest) = .loaded m1) :
    ∃ m', loadImage policy m image = .loaded m' ∧ loadImages policy m' rest = .loaded m1 := by
  rw [loadImages] at h
  split at h
  · next m' himage => exact ⟨m', himage, h⟩
  · cases h
  · cases h

theorem loadImages_append_of_loaded {policy : LoaderPolicy} {m m1 : Mem} {images : List (Option (List Byte))}
    (h : loadImages policy m images = .loaded m1) (more : List (Option (List Byte))) :
    loadImages policy m (images ++ more) = loadImages policy m1 more := by
  induction images generalizing m with
  | nil =>
    cases h
    rfl
  | cons image rest ih =>
    obtain ⟨m', himage, hrest⟩ := loadImages_cons_eq_loaded h
    exact (loadImages_cons_of_loaded himage (rest ++ more)).trans (ih hrest)

/-! ### The obligations -/

/-- Settles O11: the image's words are written in a row, and from the origin to 0xFFFF no address is met twice. -/
theorem imageWordsAreStored : Obligations.ImageWordsAreStored := by
  intro policy m origin ws hroom
  have hload : loadImage policy m (some (imageBytes (origin :: ws))) = .loaded (m.writeWords origin ws) :=
    (loadImage_imageBytes policy m origin ws).trans (loadWords_of_le hroom policy m)
  have hlen : ws.length ≤ 65536 := hroom.trans (Nat.sub_le _ _)
  refine ⟨m.writeWords origin ws, hload, fun i hi => read_writeWords_getElem m origin hlen hi, fun a ha => ?_⟩
  have hother : ∀ i < ws.length, a ≠ origin + BitVec.ofNat 16 i := fun i hi => by bv_omega
  exact read_writeWords_of_ne m hother

/-- Settles O12: the last image is loaded into the memory that the list leaves, and there O11 speaks of it. -/
theorem laterImageWins : Obligations.LaterImageWins := by
  intro policy m m1 images origin ws himages hroom
  have hlast : loadImages policy m (images ++ [some (imageBytes (origin :: ws))]) =
      loadImage policy m1 (some (imageBytes (origin :: ws))) :=
    (loadImages_append_of_loaded himages _).trans (loadImages_singleton policy m1 _)
  obtain ⟨m2, hload, hwords, -⟩ := imageWordsAreStored policy m1 origin ws hroom
  exact ⟨hlast, m2, hlast.trans hload, hwords⟩

end Sys2Proof.Machine
end

section
/-! The decoder on the spec's own words and on the encoder's (R50, R52): each format's fields are read back at their own
places. -/

namespace Sys2Proof

open Machine

/-- Settles O1: the spec's twenty words, evaluated. -/
theorem sampleWordsDecode : Obligations.SampleWordsDecode := by
  unfold Obligations.SampleWordsDecode
  decide

/-! ### Slices of packed fields -/

section
variable {a b : Nat} (x : BitVec a) (y : BitVec b)

/-- A slice of a packed word that lies wholly in its last part. -/
@[simp] theorem slice_pack_right (h : a + b = 16) (lo len : Nat) (hlo : lo + len ≤ b) :
    (pack (x ++ y) h).extractLsb' lo len = y.extractLsb' lo len := by
  rw [← field_eq_slice, field_pack_right x y h lo len hlo]

/-- A slice of a packed word that lies wholly in its first part. -/
@[simp] theorem slice_pack_left (h : a + b = 16) (lo len : Nat) (hlo : b ≤ lo) :
    (pack (x ++ y) h).extractLsb' lo len = x.extractLsb' (lo - b) len := by
  rw [← field_eq_slice, field_pack_left x y h lo len hlo]

end

theorem getLsbD_eq_slice_beq (w : Word) (k : Nat) : w.getLsbD k = (w.extractLsb' k 1 == 1) := by
  rw [← field_eq_slice, field_one_beq]

/-- Bit 11 is the top bit of the slice above the base register. -/
theorem getLsbD_eleven_of_slice {w : Word} (h : w.extractLsb' 9 3 = 0b000) : w.getLsbD 11 = false := by
  simpa using congrArg (·.getLsbD 2) h

/-! ### The formats (R52) -/

section
variable (o : BitVec 4) (r r' r'' : RegIdx)

theorem slices_off9 (off9 : BitVec 9) :
    let w := pack (o ++ r ++ off9)
    w.extractLsb' 12 4 = o ∧ w.extractLsb' 9 3 = r ∧ w.extractLsb' 0 9 = off9 := by
  simp (disch := decide) [slice_append_left, slice_append_right, -Nat.reduceAdd]

/-- The format of LDR and STR, which NOT, JMP and JSRR share with fixed bits in the fields they lack. -/
theorem slices_off6 (off6 : BitVec 6) :
    let w := pack (o ++ r ++ r' ++ off6)
    w.extractLsb' 12 4 = o ∧ w.extractLsb' 9 3 = r ∧ w.extractLsb' 6 3 = r' ∧ w.extractLsb' 0 6 = off6 := by
  simp (disch := decide) [slice_append_left, slice_append_right, -Nat.reduceAdd]

theorem slices_register :
    let w := pack (o ++ r ++ r' ++ 0b000#3 ++ r'')
    w.extractLsb' 12 4 = o ∧ w.extractLsb' 5 1 = 0 ∧ w.extractLsb' 9 3 = r ∧ w.extractLsb' 6 3 = r' ∧
      w.extractLsb' 0 3 = r'' := by
  simp (disch := decide) [slice_append_left, slice_append_right, -Nat.reduceAdd]

theorem slices_immediate (imm5 : BitVec 5) :
    let w := pack (o ++ r ++ r' ++ 0b1#1 ++ imm5)
    w.extractLsb' 12 4 = o ∧ w.extractLsb' 5 1 = 1 ∧ w.extractLsb' 9 3 = r ∧ w.extractLsb' 6 3 = r' ∧
      w.extractLsb' 0 5 = imm5 := by
  simp (disch := decide) [slice_append_left, slice_append_right, -Nat.reduceAdd]

theorem slices_off11 (off11 : BitVec 11) :
    let w := pack (o ++ 0b1#1 ++ off11)
    w.extractLsb' 12 4 = o ∧ w.extractLsb' 11 1 = 1 ∧ w.extractLsb' 0 11 = off11 := by
  simp (disch := decide) [slice_append_left, slice_append_right, -Nat.reduceAdd]

theorem slices_low12 (low : BitVec 12) :
    let w := pack (o ++ low)
    w.extractLsb' 12 4 = o ∧ w.extractLsb' 0 12 = low := by
  simp (disch := decide) [-Nat.reduceAdd]

theorem slices_trap (high : BitVec 4) (vect : BitVec 8) :
    let w := pack (o ++ high ++ vect)
    w.extractLsb' 12 4 = o ∧ w.extractLsb' 8 4 = high ∧ w.extractLsb' 0 8 = vect := by
  simp (disch := decide) [slice_append_left, slice_append_right, -Nat.reduceAdd]

end

/-- A TRAP with an unknown vector has the generic row, which keeps the bits that the vector leaves (R61). -/
theorem decode_of_unknownVector {w : Word} (ho : w.extractLsb' 12 4 = 0xF)
    (hv : definedVector (w.extractLsb' 0 8) = false) :
    decode w = .trap (w.extractLsb' 8 4) (w.extractLsb' 0 8) := by
  rw [← opcode_eq_slice] at ho
  simp only [definedVector, Bool.or_eq_false_iff, beq_eq_false_iff_ne] at hv
  simp only [decode_of_trap ho, decodeTrap, trapvect8_eq_slice, hv, if_false, field_eq_slice]

/-- Settles O2: the word is one of the instruction's opcode, and the slices that `decode` takes of it are the fields. -/
theorem decodeInvertsEncode : Obligations.DecodeInvertsEncode := by
  intro i h
  cases i with
  | br nzp off9 =>
    obtain ⟨ho, hr, hf⟩ := slices_off9 0x0#4 nzp off9
    rw [encode, decode_of_br ho, hr, hf]
  | addReg dr sr1 sr2 =>
    obtain ⟨ho, hbit, hr, hr', hr''⟩ := slices_register 0x1#4 dr sr1 sr2
    rw [encode, decode_of_add ho, getLsbD_eq_slice_beq, hbit, hr, hr', hr'']
    rfl
  | addImm dr sr1 imm5 =>
    obtain ⟨ho, hbit, hr, hr', hf⟩ := slices_immediate 0x1#4 dr sr1 imm5
    rw [encode, decode_of_add ho, getLsbD_eq_slice_beq, hbit, hr, hr', hf]
    rfl
  | ld dr off9 =>
    obtain ⟨ho, hr, hf⟩ := slices_off9 0x2#4 dr off9
    rw [encode, decode_of_ld ho, hr, hf]
  | st sr off9 =>
    obtain ⟨ho, hr, hf⟩ := slices_off9 0x3#4 sr off9
    rw [encode, decode_of_st ho, hr, hf]
  | jsrr baser =>
    obtain ⟨ho, hfixed, hr, -⟩ := slices_off6 0x4#4 0b000#3 baser 0b000000#6
    rw [encode, decode_of_jsr ho, getLsbD_eleven_of_slice hfixed, hr]
    rfl
  | jsr off11 =>
    obtain ⟨ho, hbit, hf⟩ := slices_off11 0x4#4 off11
    rw [encode, decode_of_jsr ho, getLsbD_eq_slice_beq, hbit, hf]
    rfl
  | andReg dr sr1 sr2 =>
    obtain ⟨ho, hbit, hr, hr', hr''⟩ := slices_register 0x5#4 dr sr1 sr2
    rw [encode, decode_of_and ho, getLsbD_eq_slice_beq, hbit, hr, hr', hr'']
    rfl
  | andImm dr sr1 imm5 =>
    obtain ⟨ho, hbit, hr, hr', hf⟩ := slices_immediate 0x5#4 dr sr1 imm5
    rw [encode, decode_of_and ho, getLsbD_eq_slice_beq, hbit, hr, hr', hf]
    rfl
  | ldr dr baser off6 =>
    obtain ⟨ho, hr, hr', hf⟩ := slices_off6 0x6#4 dr baser off6
    rw [encode, decode_of_ldr ho, hr, hr', hf]
  | str sr baser off6 =>
    obtain ⟨ho, hr, hr', hf⟩ := slices_off6 0x7#4 sr baser off6
    rw [encode, decode_of_str ho, hr, hr', hf]
  | rti low =>
    obtain ⟨ho, hf⟩ := slices_low12 0x8#4 low
    rw [encode, decode_of_rti ho, hf]
  | not dr sr =>
    obtain ⟨ho, hr, hr', -⟩ := slices_off6 0x9#4 dr sr 0b111111#6
    rw [encode, decode_of_not ho, hr, hr']
  | ldi dr off9 =>
    obtain ⟨ho, hr, hf⟩ := slices_off9 0xA#4 dr off9
    rw [encode, decode_of_ldi ho, hr, hf]
  | sti sr off9 =>
    obtain ⟨ho, hr, hf⟩ := slices_off9 0xB#4 sr off9
    rw [encode, decode_of_sti ho, hr, hf]
  | jmp baser =>
    obtain ⟨ho, -, hr, -⟩ := slices_off6 0xC#4 0b000#3 baser 0b000000#6
    rw [encode, decode_of_jmp ho, hr]
  | res low =>
    obtain ⟨ho, hf⟩ := slices_low12 0xD#4 low
    rw [encode, decode_of_res ho, hf]
  | lea dr off9 =>
    obtain ⟨ho, hr, hf⟩ := slices_off9 0xE#4 dr off9
    rw [encode, decode_of_lea ho, hr, hf]
  | trap high vect =>
    have hvect : definedVector vect = false := by simpa [Instr.wellFormed] using h
    obtain ⟨ho, hr, hf⟩ := slices_trap 0xF#4 high vect
    rw [encode, decode_of_unknownVector ho ((congrArg definedVector hf).trans hvect), hr, hf]
  | trapGetc | trapOut | trapPuts | trapIn | trapPutsp | trapHalt => rfl

end Sys2Proof
end

section
/-! The rows of the opcode table (R50, R61): a word has the fixed bits of the row it decodes to. -/

namespace Sys2Proof

open Machine

/-! ### What the masks of the table keep of a word -/

section
variable (w : Word)

theorem and_mask_opcode : w &&& 0xF000 = pack (w.extractLsb' 12 4 ++ 0x000#12) := by
  refine BitVec.eq_of_getLsbD_eq fun k hk => ?_
  simp only [pack_getLsbD, BitVec.getLsbD_and, BitVec.getLsbD_append, BitVec.getLsbD_extractLsb']
  interval_cases k <;> simp

theorem and_mask_bit5 :
    w &&& 0xF020 = pack (w.extractLsb' 12 4 ++ 0x00#6 ++ BitVec.ofBool (w.getLsbD 5) ++ 0x00#5) := by
  refine BitVec.eq_of_getLsbD_eq fun k hk => ?_
  simp only [pack_getLsbD, BitVec.getLsbD_and, BitVec.getLsbD_append, BitVec.getLsbD_extractLsb', BitVec.getLsbD_ofBool]
  interval_cases k <;> simp

theorem and_mask_bit11 :
    w &&& 0xF800 = pack (w.extractLsb' 12 4 ++ BitVec.ofBool (w.getLsbD 11) ++ 0x000#11) := by
  refine BitVec.eq_of_getLsbD_eq fun k hk => ?_
  simp only [pack_getLsbD, BitVec.getLsbD_and, BitVec.getLsbD_append, BitVec.getLsbD_extractLsb', BitVec.getLsbD_ofBool]
  interval_cases k <;> simp

theorem and_mask_vector : w &&& 0xF0FF = pack (w.extractLsb' 12 4 ++ 0x0#4 ++ w.extractLsb' 0 8) := by
  refine BitVec.eq_of_getLsbD_eq fun k hk => ?_
  simp only [pack_getLsbD, BitVec.getLsbD_and, BitVec.getLsbD_append, BitVec.getLsbD_extractLsb']
  interval_cases k <;> simp

end

/-! ### The row of a decoded word -/

section
variable {w : Word} {o : BitVec 4} (ho : w.extractLsb' 12 4 = o)
include ho

theorem matches_of_opcode : (⟨pack (o ++ 0x000#12), 0xF000⟩ : TableRow).matches w = true :=
  beq_iff_eq.mpr (ho ▸ and_mask_opcode w)

theorem matches_of_bit5 {b : Bool} (hb : w.getLsbD 5 = b) :
    (⟨pack (o ++ 0x00#6 ++ BitVec.ofBool b ++ 0x00#5), 0xF020⟩ : TableRow).matches w = true :=
  beq_iff_eq.mpr (ho ▸ hb ▸ and_mask_bit5 w)

theorem matches_of_bit11 {b : Bool} (hb : w.getLsbD 11 = b) :
    (⟨pack (o ++ BitVec.ofBool b ++ 0x000#11), 0xF800⟩ : TableRow).matches w = true :=
  beq_iff_eq.mpr (ho ▸ hb ▸ and_mask_bit11 w)

theorem matches_of_vector {v : BitVec 8} (hv : trapvect8 w = v) :
    (⟨pack (o ++ 0x0#4 ++ v), 0xF0FF⟩ : TableRow).matches w = true := by
  rw [trapvect8_eq_slice] at hv
  exact beq_iff_eq.mpr (ho ▸ hv ▸ and_mask_vector w)

end

theorem tableRow_decodeTrap_matches {w : Word} (ho : w.extractLsb' 12 4 = 0xF) :
    (tableRow (decodeTrap w)).matches w = true := by
  unfold decodeTrap
  split_ifs with h h h h h h
  · exact matches_of_vector ho h
  · exact matches_of_vector ho h
  · exact matches_of_vector ho h
  · exact matches_of_vector ho h
  · exact matches_of_vector ho h
  · exact matches_of_vector ho h
  · exact matches_of_opcode ho

/-- The word has the fixed bits of the row it decodes to (R61). -/
theorem tableRow_decode_matches (w : Word) : (tableRow (decode w)).matches w = true := by
  rcases opcode_cases (w.extractLsb' 12 4) with
    ho | ho | ho | ho | ho | ho | ho | ho | ho | ho | ho | ho | ho | ho | ho | ho
  · exact decode_of_br ho ▸ matches_of_opcode ho
  · rw [decode_of_add ho]
    cases hb : w.getLsbD 5 <;> exact matches_of_bit5 ho hb
  · exact decode_of_ld ho ▸ matches_of_opcode ho
  · exact decode_of_st ho ▸ matches_of_opcode ho
  · rw [decode_of_jsr ho]
    cases hb : w.getLsbD 11 <;> exact matches_of_bit11 ho hb
  · rw [decode_of_and ho]
    cases hb : w.getLsbD 5 <;> exact matches_of_bit5 ho hb
  · exact decode_of_ldr ho ▸ matches_of_opcode ho
  · exact decode_of_str ho ▸ matches_of_opcode ho
  · exact decode_of_rti ho ▸ matches_of_opcode ho
  · exact decode_of_not ho ▸ matches_of_opcode ho
  · exact decode_of_ldi ho ▸ matches_of_opcode ho
  · exact decode_of_sti ho ▸ matches_of_opcode ho
  · exact decode_of_jmp ho ▸ matches_of_opcode ho
  · exact decode_of_res ho ▸ matches_of_opcode ho
  · exact decode_of_lea ho ▸ matches_of_opcode ho
  · rw [decode_of_trap ((opcode_eq_slice w).trans ho)]
    exact tableRow_decodeTrap_matches ho

theorem tableRow_mem_opcodeTable (i : Instr) : tableRow i ∈ opcodeTable := by
  cases i <;> simp [tableRow, opcodeTable]

/-! ### Words that match a row -/

/-- A word has, in every field the row's mask covers, the row's fixed bits. -/
theorem field_of_matches {r : TableRow} {w : Word} (h : r.matches w = true) (lo len : Nat)
    (hm : field r.mask lo len = BitVec.allOnes len) : field w lo len = field r.value lo len := by
  rw [← beq_iff_eq.mp h, field_and, hm, BitVec.and_allOnes]

/-- Every row fixes the opcode. -/
theorem opcode_of_matches {r : TableRow} (hr : r ∈ opcodeTable) {w : Word} (h : r.matches w = true) :
    opcode w = opcode r.value := by
  have hmask : ∀ r ∈ opcodeTable, field r.mask 12 4 = BitVec.allOnes 4 := by decide
  exact field_of_matches h 12 4 (hmask r hr)

theorem opcode_tableRow_decode (w : Word) : opcode (tableRow (decode w)).value = opcode w :=
  (opcode_of_matches (tableRow_mem_opcodeTable _) (tableRow_decode_matches w)).symm

/-- Two rows that fit one word agree on the bits both of them fix. -/
theorem overlap_of_matches {r r' : TableRow} {w : Word} (h : r.matches w = true) (h' : r'.matches w = true) :
    r.value &&& r'.mask = r'.value &&& r.mask := by
  rw [← beq_iff_eq.mp h, ← beq_iff_eq.mp h', BitVec.and_assoc, BitVec.and_assoc, BitVec.and_comm r.mask]

/-- The only rows of the table that overlap are the generic TRAP row and those of the defined vectors. -/
theorem opcodeTable_overlap : ∀ r ∈ opcodeTable, ∀ r' ∈ opcodeTable, r.value &&& r'.mask = r'.value &&& r.mask →
    r = r' ∨ (r.mask = 0xF000 ∧ r'.mask = 0xF0FF) ∨
      (r.mask = 0xF0FF ∧ r'.mask = 0xF000 ∧ opcode r.value = 0xF ∧ definedVector (trapvect8 r.value) = true) := by
  decide

/-! ### TRAP's rows (R85) -/

/-- A defined vector's word has the vector's own row. -/
theorem mask_decodeTrap_of_defined {w : Word} (hd : definedVector (trapvect8 w) = true) :
    (tableRow (decodeTrap w)).mask = 0xF0FF := by
  simp only [definedVector, Bool.or_eq_true, beq_iff_eq] at hd
  rcases hd with ((((hd | hd) | hd) | hd) | hd) | hd <;> simp [decodeTrap, hd, tableRow]

/-- The generic row is decoded for an unknown vector only. -/
theorem definedVector_of_decode_eq_trap {w : Word} {high : BitVec 4} {v : BitVec 8} (h : decode w = .trap high v) :
    definedVector v = false := by
  have ho : opcode w = 0xF := by
    rw [← opcode_tableRow_decode, h, tableRow]
    decide
  rw [decode_of_trap ho, decodeTrap] at h
  split_ifs at h with h0 h1 h2 h3 h4 h5
  cases h
  simp only [definedVector, Bool.or_eq_false_iff, beq_eq_false_iff_ne]
  exact ⟨⟨⟨⟨⟨h0, h1⟩, h2⟩, h3⟩, h4⟩, h5⟩

theorem wellFormed_decode (w : Word) : (decode w).wellFormed = true := by
  cases hi : decode w with
  | trap high v =>
    rw [Instr.wellFormed, definedVector_of_decode_eq_trap hi]
    rfl
  | _ => rfl

/-! ### Fatal words (R61, R95 - R98) -/

/-- The vectors outside 0x20-0x25 are the unknown ones. -/
theorem definedVector_trapvect8_eq_false_iff (w : Word) :
    definedVector (trapvect8 w) = false ↔ w.toNat % 256 < 0x20 ∨ 0x25 < w.toNat % 256 := by
  rw [← Bool.not_eq_true, definedVector_iff, trapvect8_toNat]
  omega

/-- Settles O3: the row fits the word; another fitting row overlaps it; and the fatal words have the instructions that end
the run. -/
theorem everyWordFitsItsRow : Obligations.EveryWordFitsItsRow := by
  intro w
  refine ⟨wellFormed_decode w, tableRow_mem_opcodeTable _, tableRow_decode_matches w, fun r hr h => ?_, fun hw s => ?_⟩
  · rcases opcodeTable_overlap r hr _ (tableRow_mem_opcodeTable (decode w))
        (overlap_of_matches h (tableRow_decode_matches w)) with heq | hmasks | ⟨hmask, hgeneric, ho, hd⟩
    · exact .inl heq
    · exact .inr hmasks
    · have hop : opcode w = 0xF := (opcode_of_matches hr h).trans ho
      have hvect : trapvect8 w = trapvect8 r.value := field_of_matches h 0 8 (by rw [hmask]; rfl)
      rw [decode_of_trap hop, mask_decodeTrap_of_defined (hvect ▸ hd)] at hgeneric
      exact absurd hgeneric (by decide)
  · rcases hw with ho | ho | ⟨ho, hv⟩
    · exact ⟨_, exec_decode_of_fatalOpcode (fatalOpcode_iff_slice.mpr (.inl ho)) s, rfl⟩
    · exact ⟨_, exec_decode_of_fatalOpcode (fatalOpcode_iff_slice.mpr (.inr ho)) s, rfl⟩
    · exact ⟨_, exec_decode_of_unknownVector ((opcode_eq_slice w).trans ho)
        ((definedVector_trapvect8_eq_false_iff w).mpr hv) s, rfl⟩

end Sys2Proof
end

section
/-! What an instruction can do to memory, the streams and the run state, said once for each of three kinds: the TRAP rows,
RTI and RES, and all others. -/

namespace Sys2Proof.Machine

/-! ### The streams only grow and are only consumed (R25, R86) -/

/-- Bytes were only appended to the output, and answers only taken from the front of the console. -/
def StreamsAdvance (s t : State) : Prop := s.output <+: t.output ∧ t.console <:+ s.console

theorem StreamsAdvance.refl (s : State) : StreamsAdvance s s := ⟨List.prefix_refl _, List.suffix_refl _⟩

theorem StreamsAdvance.trans {s t u : State} (hst : StreamsAdvance s t) (htu : StreamsAdvance t u) :
    StreamsAdvance s u :=
  ⟨hst.1.trans htu.1, htu.2.trans hst.2⟩

theorem streamsAdvance_consoleWriteAll (s : State) (bs : List Byte) : StreamsAdvance s (s.consoleWriteAll bs) :=
  ⟨List.prefix_append _ bs, List.suffix_refl _⟩

theorem streamsAdvance_memRead (a : Word) (s : State) : StreamsAdvance s (memRead a s).2 := by
  refine ⟨by rw [memRead_output], ?_⟩
  rcases memRead_console a s with h | h <;> rw [h]
  exact List.tail_suffix _

/-! ### Instructions that neither trap nor are reserved -/

/-- What every such instruction leaves alone: the control fields and the output, the order of the host's answers, and
memory's canonical form. -/
structure PlainFrame (s t : State) : Prop where
  control : ControlKept s t
  streams : StreamsAdvance s t
  mem_wf : s.mem.wf → t.mem.wf

theorem PlainFrame.trans {s t u : State} (hst : PlainFrame s t) (htu : PlainFrame t u) : PlainFrame s u := by
  obtain ⟨⟨hrun, hhold, habort⟩, hstreams, hwf⟩ := hst
  obtain ⟨⟨hrun', hhold', habort'⟩, hstreams', hwf'⟩ := htu
  exact ⟨⟨hrun'.trans hrun, hhold'.trans hhold, habort'.trans habort⟩, hstreams.trans hstreams', hwf' ∘ hwf⟩

theorem plainFrame_memRead (a : Word) (s : State) : PlainFrame s (memRead a s).2 :=
  ⟨controlKept_memRead a s, streamsAdvance_memRead a s, fun h => memRead_wf h a⟩

theorem plainFrame_memWrite (a v : Word) (s : State) : PlainFrame s (memWrite a v s) :=
  ⟨⟨rfl, rfl, rfl⟩, .refl s, fun h => wf_write h a v⟩

theorem plainFrame_writeResult (s : State) (r : RegIdx) (v : Word) : PlainFrame s (s.writeResult r v) :=
  ⟨⟨rfl, rfl, rfl⟩, .refl s, id⟩

theorem plainFrame_setPc (s : State) (v : Word) : PlainFrame s (s.setPc v) := ⟨⟨rfl, rfl, rfl⟩, .refl s, id⟩

theorem plainFrame_linkR7 (s : State) : PlainFrame s (linkR7 s) := ⟨⟨rfl, rfl, rfl⟩, .refl s, id⟩

theorem plainFrame_loadFrom (ea : Word) (dr : RegIdx) (s : State) : PlainFrame s (loadFrom ea dr s) :=
  (plainFrame_memRead ea s).trans (plainFrame_writeResult _ dr _)

/-- The vector of a TRAP instruction, with a row of its own or the generic one (R85). -/
def trapVector : Instr → Option (BitVec 8)
  | .trap _ v => some v
  | .trapGetc => some 0x20
  | .trapOut => some 0x21
  | .trapPuts => some 0x22
  | .trapIn => some 0x23
  | .trapPutsp => some 0x24
  | .trapHalt => some 0x25
  | .br _ _ => none
  | .addReg _ _ _ => none
  | .addImm _ _ _ => none
  | .ld _ _ => none
  | .st _ _ => none
  | .jsrr _ => none
  | .jsr _ => none
  | .andReg _ _ _ => none
  | .andImm _ _ _ => none
  | .ldr _ _ _ => none
  | .str _ _ _ => none
  | .rti _ => none
  | .not _ _ => none
  | .ldi _ _ => none
  | .sti _ _ => none
  | .jmp _ => none
  | .res _ => none
  | .lea _ _ => none

/-- RTI and RES (R95, R96). -/
def reserved : Instr → Bool
  | .rti _ => true
  | .res _ => true
  | _ => false

theorem exec_plainFrame {i : Instr} {s t : State} (hv : trapVector i = none) (hr : reserved i = false)
    (h : exec i s = .next t) : PlainFrame s t := by
  cases i with
  | addReg | addImm | andReg | andImm | not | lea => cases h; exact plainFrame_writeResult s _ _
  | ld | ldr => cases h; exact plainFrame_loadFrom _ _ s
  | ldi => cases h; exact (plainFrame_memRead _ s).trans (plainFrame_loadFrom _ _ _)
  | st | str => cases h; exact plainFrame_memWrite _ _ s
  | sti => cases h; exact (plainFrame_memRead _ s).trans (plainFrame_memWrite _ _ _)
  | jmp => cases h; exact plainFrame_setPc s _
  | jsr | jsrr => cases h; exact (plainFrame_linkR7 s).trans (plainFrame_setPc _ _)
  | br nzp off9 =>
    by_cases hz : nzp &&& s.cond = 0b000
    · cases (exec_br_of_not_taken hz off9).symm.trans h
      exact plainFrame_setPc s _
    · cases (exec_br_of_taken hz off9).symm.trans h
      exact plainFrame_setPc s _
  | rti | res => cases hr
  | trap | trapGetc | trapOut | trapPuts | trapIn | trapPutsp | trapHalt => cases hv

/-- RTI and RES change the run state only. -/
theorem exec_of_reserved {i : Instr} (h : reserved i = true) (s : State) :
    exec i s = .next (raiseFatal .unimplementedOpcode (encode i) s) := by
  cases i with
  | rti | res => rfl
  | _ => cases h

/-! ### TRAP (R84, R85) -/

/-- Every TRAP instruction is trap entry and a dispatch on its vector. -/
theorem exec_of_trapVector {i : Instr} {v : BitVec 8} (h : trapVector i = some v) (s : State) :
    exec i s = .next (trapDispatch v (encode i) (trapEntry s)) := by
  cases i with
  | trap | trapGetc | trapOut | trapPuts | trapIn | trapPutsp | trapHalt => cases h; rfl
  | _ => cases h

/-- What the dispatcher runs for each vector. -/
theorem trapDispatch_cases (v : BitVec 8) (w : Word) (s : State) :
    (v = 0x20 ∧ trapDispatch v w s = routineGetc s) ∨ (v = 0x21 ∧ trapDispatch v w s = routineOut s) ∨
    (v = 0x22 ∧ trapDispatch v w s = routinePuts s) ∨ (v = 0x23 ∧ trapDispatch v w s = routineIn s) ∨
    (v = 0x24 ∧ trapDispatch v w s = routinePutsp s) ∨ (v = 0x25 ∧ trapDispatch v w s = routineHalt s) ∨
    (definedVector v = false ∧ trapDispatch v w s = raiseFatal .unimplementedTrapVector w s) := by
  cases hd : definedVector v with
  | false =>
    have hne := hd
    simp only [definedVector, Bool.or_eq_false_iff, beq_eq_false_iff_ne] at hne
    simp only [trapDispatch, hne, if_false, and_self, false_and, or_true]
  | true =>
    simp only [definedVector, Bool.or_eq_true, beq_iff_eq] at hd
    rcases hd with ((((rfl | rfl) | rfl) | rfl) | rfl) | rfl <;> simp [trapDispatch]

theorem readOrHold_of_byte {s : State} {b : Byte} {rest : List (Option Byte)} (hc : s.console = some b :: rest)
    (h : Hold) (finish : Byte → State → State) :
    readOrHold h finish s = finish b { s with console := rest, hold := .free } := by
  rw [readOrHold, consoleRead, ← consolePoll, consolePoll_byte hc]

theorem readOrHold_of_none {s : State} (hn : NoByteNext s) (h : Hold) (finish : Byte → State → State) :
    readOrHold h finish s = { s with console := s.console.tail, hold := h } := by
  rw [readOrHold, consoleRead, ← consolePoll, consolePoll_none hn]

/-- A console read inside a routine keeps the run state, held or not (R94). -/
theorem readOrHold_run (h : Hold) {finish : Byte → State → State} (hf : ∀ b u, (finish b u).run = u.run) (s : State) :
    (readOrHold h finish s).run = s.run := by
  rcases readOrHold_cases h finish s with ⟨b, rest, _, e⟩ | ⟨_, e⟩ <;> rw [e]
  exact hf b _

theorem finishGetc_run (b : Byte) (s : State) : (finishGetc b s).run = s.run := rfl

theorem finishIn_run (b : Byte) (s : State) : (finishIn b s).run = s.run := rfl

theorem streamsAdvance_readOrHold (h : Hold) {finish : Byte → State → State}
    (hf : ∀ b u, StreamsAdvance u (finish b u)) (s : State) : StreamsAdvance s (readOrHold h finish s) := by
  rcases readOrHold_cases h finish s with ⟨b, rest, hc, e⟩ | ⟨_, e⟩ <;> rw [e]
  · refine StreamsAdvance.trans (t := { s with console := rest, hold := .free }) ⟨List.prefix_refl _, ?_⟩ (hf b _)
    exact hc ▸ List.suffix_cons _ rest
  · exact ⟨List.prefix_refl _, List.tail_suffix _⟩

theorem streamsAdvance_finishGetc (b : Byte) (s : State) : StreamsAdvance s (finishGetc b s) := .refl s

theorem streamsAdvance_finishIn (b : Byte) (s : State) : StreamsAdvance s (finishIn b s) :=
  ⟨List.prefix_append _ [b], List.suffix_refl _⟩

theorem streamsAdvance_trapDispatch (v : BitVec 8) (w : Word) (s : State) :
    StreamsAdvance s (trapDispatch v w s) := by
  rcases trapDispatch_cases v w s with
    ⟨-, e⟩ | ⟨-, e⟩ | ⟨-, e⟩ | ⟨-, e⟩ | ⟨-, e⟩ | ⟨-, e⟩ | ⟨-, e⟩ <;> rw [e]
  · exact streamsAdvance_readOrHold _ streamsAdvance_finishGetc s
  · exact streamsAdvance_consoleWriteAll s _
  · exact routinePuts_eq s ▸ streamsAdvance_consoleWriteAll s _
  · exact (streamsAdvance_consoleWriteAll s _).trans (streamsAdvance_readOrHold _ streamsAdvance_finishIn _)
  · exact routinePutsp_eq s ▸ streamsAdvance_consoleWriteAll s _
  · exact streamsAdvance_consoleWriteAll s _
  · exact .refl s

/-- Of the defined vectors only HALT's ends the run. -/
theorem trapDispatch_run {v : BitVec 8} (hd : definedVector v = true) (hv : v ≠ 0x25) (w : Word) (s : State) :
    (trapDispatch v w s).run = s.run := by
  rcases trapDispatch_cases v w s with
    ⟨-, e⟩ | ⟨-, e⟩ | ⟨-, e⟩ | ⟨-, e⟩ | ⟨-, e⟩ | ⟨h, -⟩ | ⟨h, -⟩
  · exact e ▸ readOrHold_run .getc finishGetc_run s
  · rw [e]; rfl
  · rw [e, routinePuts_eq]; rfl
  · exact e ▸ readOrHold_run .inp finishIn_run (s.consoleWriteAll Config.inPrompt)
  · rw [e, routinePutsp_eq]; rfl
  · exact absurd h hv
  · exact absurd (hd.symm.trans h) (by decide)

/-- Only GETC and IN write a register after trap entry. -/
theorem readReg_trapDispatch {v : BitVec 8} (hv : v ≠ 0x20 ∧ v ≠ 0x23) (w : Word) (s : State) (r : RegIdx) :
    (trapDispatch v w s).readReg r = s.readReg r := by
  rcases trapDispatch_cases v w s with
    ⟨h, -⟩ | ⟨-, e⟩ | ⟨-, e⟩ | ⟨h, -⟩ | ⟨-, e⟩ | ⟨-, e⟩ | ⟨-, e⟩
  · exact absurd h hv.1
  · rw [e]; rfl
  · rw [e, routinePuts_eq]; rfl
  · exact absurd h hv.2
  · rw [e, routinePutsp_eq]; rfl
  · rw [e]; rfl
  · rw [e]; rfl

/-- No routine writes R7 after trap entry (R93). -/
theorem trapDispatch_trapEntry_link (v : BitVec 8) (w : Word) (s : State) :
    (trapDispatch v w (trapEntry s)).readReg 7 = s.pc :=
  ((trapDispatch_frame v w (trapEntry s)).regs 7 (by decide)).trans (readReg_trapEntry_link s)

/-! ### All instructions -/

/-- The three kinds of instruction. -/
theorem trapVector_or_reserved_or_plain (i : Instr) :
    (∃ v, trapVector i = some v) ∨ reserved i = true ∨ (trapVector i = none ∧ reserved i = false) := by
  cases hv : trapVector i with
  | some v => exact .inl ⟨v, rfl⟩
  | none => cases hr : reserved i <;> simp

section
variable {i : Instr} {s t : State} (h : exec i s = .next t)
include h

theorem exec_streamsAdvance : StreamsAdvance s t := by
  rcases trapVector_or_reserved_or_plain i with ⟨v, hv⟩ | hr | ⟨hv, hr⟩
  · cases (exec_of_trapVector hv s).symm.trans h
    exact streamsAdvance_trapDispatch v _ (trapEntry s)
  · cases (exec_of_reserved hr s).symm.trans h
    exact .refl s
  · exact (exec_plainFrame hv hr h).streams

theorem exec_mem_wf (hwf : s.mem.wf) : t.mem.wf := by
  rcases trapVector_or_reserved_or_plain i with ⟨v, hv⟩ | hr | ⟨hv, hr⟩
  · cases (exec_of_trapVector hv s).symm.trans h
    rwa [(trapDispatch_frame v _ (trapEntry s)).mem]
  · cases (exec_of_reserved hr s).symm.trans h
    exact hwf
  · exact (exec_plainFrame hv hr h).mem_wf hwf

/-- Where an instruction changes the hold, it has entered a trap. -/
theorem exec_hold : t.hold = s.hold ∨ t.readReg 7 = t.pc := by
  rcases trapVector_or_reserved_or_plain i with ⟨v, hv⟩ | hr | ⟨hv, hr⟩
  · cases (exec_of_trapVector hv s).symm.trans h
    rw [trapDispatch_trapEntry_link, (trapDispatch_frame v _ (trapEntry s)).pc]
    exact .inr rfl
  · cases (exec_of_reserved hr s).symm.trans h
    exact .inl rfl
  · obtain ⟨-, hhold, -⟩ := (exec_plainFrame hv hr h).control
    exact .inl hhold

end

/-! ### Decoded words and the run state (R97, R98) -/

theorem trapVector_decode {w : Word} (ho : opcode w = 0xF) : trapVector (decode w) = some (trapvect8 w) := by
  rw [decode_of_trap ho, decodeTrap]
  split_ifs with h h h h h h <;> simp only [trapVector, h]

/-- The opcodes of TRAP, RTI and RES are in their rows, so a word with another opcode has another kind of instruction. -/
theorem plain_decode {w : Word} (hf : fatalOpcode w = false) (ho : opcode w ≠ 0xF) :
    trapVector (decode w) = none ∧ reserved (decode w) = false := by
  have hrow := opcode_tableRow_decode w
  cases hi : decode w with
  | rti | res =>
    rw [hi, tableRow] at hrow
    rw [fatalOpcode, ← hrow] at hf
    exact absurd hf (by decide)
  | trap | trapGetc | trapOut | trapPuts | trapIn | trapPutsp | trapHalt =>
    rw [hi, tableRow] at hrow
    exact absurd (hrow.symm.trans (by decide)) ho
  | _ => exact ⟨rfl, rfl⟩

/-- No word raises both causes: their opcodes differ. -/
theorem raises_unique {c c' : FatalCause} {w : Word} (h : raises c w = true) (h' : raises c' w = true) : c = c' := by
  have hboth : fatalOpcode w = true → ¬ (opcode w == 0xF && !definedVector (trapvect8 w)) = true := by
    intro hf hv
    rw [fatalOpcode, beq_iff_eq.mp (Bool.and_eq_true_iff.mp hv).1] at hf
    exact absurd hf (by decide)
  cases c <;> cases c'
  · rfl
  · exact absurd h' (hboth h)
  · exact absurd h (hboth h')
  · rfl

/-- The words of neither cause: no reserved opcode, and no TRAP but one with a defined vector. -/
theorem raises_eq_false {w : Word} (hf : fatalOpcode w = false)
    (hw : opcode w ≠ 0xF ∨ definedVector (trapvect8 w) = true) (c : FatalCause) : raises c w = false := by
  cases c with
  | unimplementedOpcode => exact hf
  | unimplementedTrapVector =>
    rcases hw with ho | hd
    · rw [raises, beq_eq_false_iff_ne.mpr ho, Bool.false_and]
    · rw [raises, hd, Bool.not_true, Bool.and_false]

/-- How a decoded word can end the run: by the fatal error it raises, by HALT, and in no other way. -/
theorem exec_decode_cases {w : Word} {s t : State} (h : exec (decode w) s = .next t) :
    (∃ c, raises c w = true ∧ t.run = .fatal c w ∧ t.hold = s.hold ∧ t.pc = s.pc ∧
      (c = .unimplementedTrapVector → t.readReg 7 = t.pc)) ∨
    ((∀ c, raises c w = false) ∧
      ((opcode w = 0xF ∧ trapvect8 w = 0x25 ∧ t = routineHalt (trapEntry s)) ∨ t.run = s.run)) := by
  cases hf : fatalOpcode w with
  | true =>
    cases (exec_decode_of_fatalOpcode hf s).symm.trans h
    exact .inl ⟨.unimplementedOpcode, hf, rfl, rfl, rfl, fun hc => nomatch hc⟩
  | false =>
    by_cases ho : opcode w = 0xF
    · cases hd : definedVector (trapvect8 w) with
      | false =>
        cases (exec_decode_of_unknownVector ho hd s).symm.trans h
        exact .inl ⟨.unimplementedTrapVector, by simp [raises, ho, hd], rfl, rfl, rfl,
          fun _ => readReg_trapEntry_link s⟩
      | true =>
        refine .inr ⟨raises_eq_false hf (.inr hd), ?_⟩
        cases (exec_of_trapVector (trapVector_decode ho) s).symm.trans h
        by_cases hv : trapvect8 w = 0x25
        · exact .inl ⟨ho, hv, by rw [hv]; rfl⟩
        · exact .inr (trapDispatch_run hd hv _ (trapEntry s))
    · obtain ⟨hv, hr⟩ := plain_decode hf ho
      obtain ⟨hrun, -⟩ := (exec_plainFrame hv hr h).control
      exact .inr ⟨raises_eq_false hf (.inl ho), .inr hrun⟩

end Sys2Proof.Machine
end

section
/-! The step (R57, R58): the four things it can do, and what follows of its end states and its streams. -/

namespace Sys2Proof.Machine

/-! ### The four steps -/

/-- The state the fetch leaves once one boundary has passed (R57, log entry 11). -/
def afterFetch (s : State) : State :=
  { (memRead s.pc s).2 with pc := s.pc + 1, abortIn := s.abortIn.map (· - 1) }

theorem fetch_passBoundary_eq (s : State) : fetch (passBoundary s) = ((memRead s.pc s).1, afterFetch s) :=
  fetch_passBoundary s

theorem afterFetch_of_ne {s : State} (h : s.pc ≠ Config.kbsrAddr) :
    afterFetch s = { s with pc := s.pc + 1, abortIn := s.abortIn.map (· - 1) } := by
  rw [afterFetch, memRead_of_ne h]

@[simp] theorem afterFetch_run (s : State) : (afterFetch s).run = s.run := memRead_run s.pc s
@[simp] theorem afterFetch_hold (s : State) : (afterFetch s).hold = s.hold := memRead_hold s.pc s
@[simp] theorem afterFetch_cond (s : State) : (afterFetch s).cond = s.cond := memRead_cond s.pc s

theorem afterFetch_wf {s : State} (h : s.mem.wf) : (afterFetch s).mem.wf := memRead_wf h s.pc

theorem streamsAdvance_afterFetch (s : State) : StreamsAdvance s (afterFetch s) := streamsAdvance_memRead s.pc s

/-- Settles O53: each run state but RUNNING has an arm of its own, which answers the state. -/
theorem terminalStatesStay : Obligations.TerminalStatesStay := by
  intro s hr
  cases h : s.run with
  | running => exact absurd h hr
  | halted | fatal | aborted => simp [step, h]

section
variable {s : State}

theorem step_of_abort (hr : s.run = .running) (ha : s.abortIn = some 0) : step s = .next s.hostAbort := by
  simp [step, hr, abortsNow, ha]

theorem step_eq_advance (hr : s.run = .running) (ha : s.abortIn ≠ some 0) : step s = advance (passBoundary s) := by
  simp [step, hr, abortsNow, ha]

theorem step_of_held (hr : s.run = .running) (ha : s.abortIn ≠ some 0) (hh : s.hold ≠ .free) :
    step s = .next (resumeHeld (passBoundary s)) := by
  rw [step_eq_advance hr ha]
  cases h : s.hold with
  | free => exact absurd h hh
  | getc | inp => simp [advance, h]

theorem step_of_free (hr : s.run = .running) (ha : s.abortIn ≠ some 0) (hh : s.hold = .free) :
    step s = exec (decode (memRead s.pc s).1) (afterFetch s) := by
  rw [step_eq_advance hr ha, advance, passBoundary_hold, hh, fetch_passBoundary_eq]

end

/-- Settles O22: where PC is not KBSR_ADDR the fetch does not poll. -/
theorem stepRunsDecodedInstruction : Obligations.StepRunsDecodedInstruction := by
  intro s hr hh ha
  refine ⟨step_of_free hr ha hh, fun hpc => ?_⟩
  rw [step_of_free hr ha hh, afterFetch_of_ne hpc, memRead_of_ne hpc]

/-- Every instruction has a next state, in every state (R97). -/
theorem exec_answers (i : Instr) (s : State) : ∃ t, exec i s = .next t := by
  cases i <;> exact ⟨_, rfl⟩

/-- Settles O55: each of the four steps answers. -/
theorem everyStepAnswers : Obligations.EveryStepAnswers := by
  intro s
  by_cases hr : s.run = .running
  · by_cases ha : s.abortIn = some 0
    · exact ⟨_, step_of_abort hr ha⟩
    · by_cases hh : s.hold = .free
      · exact step_of_free hr ha hh ▸ exec_answers _ _
      · exact ⟨_, step_of_held hr ha hh⟩
  · exact ⟨s, terminalStatesStay s hr⟩

/-- A held block's step is one more try of a console read: a routine's frame, the run state and the streams' order. -/
theorem resumeHeld_frame (s : State) :
    RoutineFrame s (resumeHeld s) ∧ (resumeHeld s).run = s.run ∧ StreamsAdvance s (resumeHeld s) := by
  unfold resumeHeld
  split
  · exact ⟨⟨rfl, rfl, rfl, rfl, fun _ _ => rfl⟩, rfl, .refl s⟩
  · exact ⟨routineFrame_readOrHold _ routineFrame_finishGetc s, readOrHold_run _ finishGetc_run s,
      streamsAdvance_readOrHold _ streamsAdvance_finishGetc s⟩
  · exact ⟨routineFrame_readOrHold _ routineFrame_finishIn s, readOrHold_run _ finishIn_run s,
      streamsAdvance_readOrHold _ streamsAdvance_finishIn s⟩

/-- Everything a step can do to the run state. -/
theorem step_run_cases {s t : State} (h : step s = .next t) :
    t.run = s.run ∨ (s.run = .running ∧ s.abortIn = some 0 ∧ t.run = .aborted) ∨
    (s.run = .running ∧ s.abortIn ≠ some 0 ∧ s.hold = .free ∧
      exec (decode (memRead s.pc s).1) (afterFetch s) = .next t) := by
  rcases step_cases h with ⟨-, rfl⟩ | ⟨hr, ha, rfl⟩ | ⟨hr, ha, hh, rfl⟩ | ⟨hr, ha, hh, he⟩
  · exact .inl rfl
  · exact .inr (.inl ⟨hr, ha, rfl⟩)
  · obtain ⟨-, hrun, -⟩ := resumeHeld_frame (passBoundary s)
    exact .inl hrun
  · rw [fetch_passBoundary_eq] at he
    exact .inr (.inr ⟨hr, ha, hh, he⟩)

/-! ### The ends of a run (R92, R97, R109, R110) -/

/-- Settles O54: a fetched word ends the run FATAL or HALTED or not at all. -/
theorem hostAbortOnly : Obligations.HostAbortOnly := by
  refine ⟨fun s hr ha => step_of_abort hr ha, fun s t h hs ht => ?_⟩
  rcases step_run_cases h with hrun | ⟨hr, ha, -⟩ | ⟨hr, -, -, he⟩
  · exact absurd (hrun.symm.trans ht) hs
  · exact ⟨hr, ha⟩
  · rcases exec_decode_cases he with ⟨c, -, hrun, -⟩ | ⟨-, ⟨-, -, rfl⟩ | hrun⟩
    · exact absurd (hrun.symm.trans ht) (by simp)
    · exact absurd ht (by simp [routineHalt])
    · exact absurd ((afterFetch_run s).symm.trans (hrun.symm.trans ht)) (by simp [hr])

/-- Settles O52: of the fetched words only HALT's ends the run HALTED. -/
theorem onlyHaltReachesHalted : Obligations.OnlyHaltReachesHalted := by
  intro s t h hs ht
  rcases step_run_cases h with hrun | ⟨-, -, hrun⟩ | ⟨hr, -, hh, he⟩
  · exact absurd (hrun.symm.trans ht) hs
  · exact absurd (hrun.symm.trans ht) (by simp)
  · rcases exec_decode_cases he with ⟨c, -, hrun, -⟩ | ⟨-, ⟨ho, hv, -⟩ | hrun⟩
    · exact absurd (hrun.symm.trans ht) (by simp)
    · exact ⟨hr, hh, (opcode_eq_slice _).symm.trans ho, (trapvect8_eq_slice _).symm.trans hv⟩
    · exact absurd (hrun.symm.trans ht) (by simp [hr])

/-- The words that raise a cause, in the spec's terms (R97). -/
theorem raises_iff (c : FatalCause) (w : Word) : raises c w = true ↔
    (c = .unimplementedOpcode ∧ (w.extractLsb' 12 4 = 0x8 ∨ w.extractLsb' 12 4 = 0xD)) ∨
    (c = .unimplementedTrapVector ∧ w.extractLsb' 12 4 = 0xF ∧ (w.toNat % 256 < 0x20 ∨ 0x25 < w.toNat % 256)) := by
  cases c with
  | unimplementedOpcode => simp [raises, fatalOpcode_iff_slice]
  | unimplementedTrapVector =>
    simp [raises, opcode_eq_slice, definedVector_trapvect8_eq_false_iff]

/-- A RUNNING block that executes a word ends FATAL exactly with a cause the word raises, which it records. -/
theorem exec_decode_fatal_iff {w x : Word} {c : FatalCause} {s t : State} (hr : s.run = .running)
    (h : exec (decode w) s = .next t) : t.run = .fatal c x ↔ x = w ∧ raises c x = true := by
  rcases exec_decode_cases h with ⟨c', hraises, hrun, -⟩ | ⟨hraises, hend⟩
  · rw [hrun]
    constructor
    · rintro ⟨⟩
      exact ⟨rfl, hraises⟩
    · rintro ⟨rfl, hc⟩
      rw [raises_unique hc hraises]
  · refine ⟨fun ht => ?_, fun ⟨hx, hc⟩ => absurd (hx ▸ hc) (by simp [hraises])⟩
    rcases hend with ⟨-, -, rfl⟩ | hrun
    · exact absurd ht (by simp [routineHalt])
    · exact absurd ht (by simp [hrun, hr])

/-- A fatal end leaves PC where the fetch put it, and after an unknown vector R7 holds it too (R98). -/
theorem exec_decode_fatal_pc {w x : Word} {c : FatalCause} {s t : State} (hr : s.run = .running)
    (h : exec (decode w) s = .next t) (ht : t.run = .fatal c x) :
    t.pc = s.pc ∧ (c = .unimplementedTrapVector → t.readReg 7 = t.pc) := by
  rcases exec_decode_cases h with ⟨c', -, hrun, -, hpc, hlink⟩ | ⟨-, ⟨-, -, rfl⟩ | hrun⟩
  · obtain ⟨rfl, -⟩ := RunState.fatal.inj (hrun.symm.trans ht)
    exact ⟨hpc, hlink⟩
  · exact absurd ht (by simp [routineHalt])
  · exact absurd ht (by simp [hrun, hr])

/-- Settles O51: a step that fetches ends FATAL as its word says, and one that does not fetch never does. -/
theorem fatalErrorsAreExactlyTwo : Obligations.FatalErrorsAreExactlyTwo := by
  refine ⟨rfl, rfl, fun s t c x hr h => ?_⟩
  rw [← raises_iff]
  by_cases hfetch : s.hold = .free ∧ s.abortIn ≠ some 0
  · obtain ⟨hh, ha⟩ := hfetch
    rw [step_of_free hr ha hh] at h
    have hr' : (afterFetch s).run = .running := (afterFetch_run s).trans hr
    refine ⟨?_, exec_decode_fatal_pc hr' h⟩
    rw [exec_decode_fatal_iff hr' h]
    exact ⟨fun hx => ⟨hh, ha, hx⟩, fun ⟨_, _, hx⟩ => hx⟩
  · have hrun : t.run ≠ .fatal c x := by
      rcases step_run_cases h with hrun | ⟨-, -, hrun⟩ | ⟨-, ha, hh, -⟩
      · simp [hrun, hr]
      · simp [hrun]
      · exact absurd ⟨hh, ha⟩ hfetch
    exact ⟨⟨fun ht => absurd ht hrun, fun ⟨hh, ha, _⟩ => absurd ⟨hh, ha⟩ hfetch⟩, fun ht => absurd ht hrun⟩

/-! ### The streams (R25, R86) -/

theorem step_streamsAdvance {s t : State} (h : step s = .next t) : StreamsAdvance s t := by
  rcases step_cases h with ⟨-, rfl⟩ | ⟨-, -, rfl⟩ | ⟨-, -, -, rfl⟩ | ⟨-, -, -, he⟩
  · exact .refl t
  · exact .refl s
  · obtain ⟨-, -, hstreams⟩ := resumeHeld_frame (passBoundary s)
    exact hstreams
  · rw [fetch_passBoundary_eq] at he
    exact (streamsAdvance_afterFetch s).trans (exec_streamsAdvance he)

/-- Settles O56: the console operations are one function, and every step only appends and takes from the front. -/
theorem streamsKeepTheirOrder : Obligations.StreamsKeepTheirOrder :=
  ⟨fun _ _ _ h => ⟨consolePoll_byte h, consolePoll_byte h⟩, fun _ h => ⟨consolePoll_none h, consolePoll_none h⟩,
    fun _ _ h => step_streamsAdvance h⟩

end Sys2Proof.Machine
end

section
/-! The invariant: it holds at reset and after every startup, and every step keeps it. -/

namespace Sys2Proof.Machine

/-! ### COND (R17, R18, R20) -/

/-- A value's flag is one flag. -/
theorem condLegal_condOf (v : Word) : condLegal (condOf v) = true := by
  rcases condOf_cases v with ⟨-, e⟩ | ⟨-, -, e⟩ | ⟨-, -, e⟩ <;> rw [e] <;> rfl

theorem exec_condLegal {i : Instr} {s t : State} (h : exec i s = .next t) (hs : condLegal s.cond = true) :
    condLegal t.cond = true := by
  cases hi : flagDefining i with
  | none => rwa [exec_cond_of_flagDefining_none hi h]
  | some r =>
    obtain ⟨u, v, hu⟩ := exec_eq_writeResult hi s
    cases hu.symm.trans h
    exact condLegal_condOf v

/-! ### The steps -/

/-- A decoded word run by a free RUNNING block: every end of the run, and every hold, leaves what the invariant asks. -/
theorem exec_decode_inv {w : Word} {s t : State} (hwf : s.mem.wf) (hcond : condLegal s.cond = true)
    (hr : s.run = .running) (hh : s.hold = .free) (h : exec (decode w) s = .next t) : t.Inv where
  mem_wf := exec_mem_wf h hwf
  cond_legal := exec_condLegal h hcond
  held ht := (exec_hold h).resolve_left fun hkept => ht (hkept.trans hh)
  halted ht := by
    rcases exec_decode_cases h with ⟨c, -, hrun, -⟩ | ⟨-, ⟨-, -, rfl⟩ | hrun⟩
    · exact absurd (hrun.symm.trans ht) (by simp)
    · exact ⟨hh, readReg_trapEntry_link s⟩
    · exact absurd (hr.symm.trans (hrun.symm.trans ht)) (by simp)
  fatal c x ht := by
    rcases exec_decode_cases h with ⟨c', hraises, hrun, hhold, -, hlink⟩ | ⟨-, ⟨-, -, rfl⟩ | hrun⟩
    · obtain ⟨rfl, rfl⟩ := RunState.fatal.inj (hrun.symm.trans ht)
      exact ⟨hhold.trans hh, hraises, hlink⟩
    · exact absurd ht (by simp [routineHalt])
    · exact absurd (hr.symm.trans (hrun.symm.trans ht)) (by simp)

/-- A RUNNING block meets the invariant by its memory, COND and hold alone, and so does one the host has just aborted. -/
theorem inv_of_running_or_aborted {s : State} (hwf : s.mem.wf) (hcond : condLegal s.cond = true)
    (hheld : s.hold ≠ .free → s.readReg 7 = s.pc) (hr : s.run = .running ∨ s.run = .aborted) : s.Inv where
  mem_wf := hwf
  cond_legal := hcond
  held := hheld
  halted ht := by rcases hr with hr | hr <;> exact absurd (hr.symm.trans ht) (by simp)
  fatal c x ht := by rcases hr with hr | hr <;> exact absurd (hr.symm.trans ht) (by simp)

/-- Settles O58: an ended block stays, an abort and a held read write neither R7 nor PC, and a fetched word is
`exec_decode_inv`'s. -/
theorem stepKeepsInvariant : Obligations.StepKeepsInvariant := by
  intro s t hs h
  rcases step_cases h with ⟨-, rfl⟩ | ⟨-, -, rfl⟩ | ⟨hr, -, hh, rfl⟩ | ⟨hr, -, hh, he⟩
  · exact hs
  · exact inv_of_running_or_aborted hs.mem_wf hs.cond_legal hs.held (.inr rfl)
  · obtain ⟨⟨hpc, hcond, hmem, -, hregs⟩, hrun, -⟩ := resumeHeld_frame (passBoundary s)
    refine inv_of_running_or_aborted (hmem ▸ hs.mem_wf) (hcond ▸ hs.cond_legal) (fun _ => ?_) (.inl (hrun.trans hr))
    rw [hpc, hregs 7 (by decide)]
    exact hs.held hh
  · rw [fetch_passBoundary_eq] at he
    exact exec_decode_inv (afterFetch_wf hs.mem_wf) ((afterFetch_cond s).symm ▸ hs.cond_legal)
      ((afterFetch_run s).trans hr) ((afterFetch_hold s).trans hh) he

/-! ### The start (R111, R113 - R115) -/

/-- The state before the first fetch meets the invariant with either value of COND_RESET. -/
theorem inv_initial {c : BitVec 3} {m : Mem} (hc : c = 0b000 ∨ c = 0b010) (hm : m.wf) (console : List (Option Byte))
    (abortIn : Option Nat) : (State.initial c m console abortIn).Inv := by
  refine inv_of_running_or_aborted hm ?_ (fun h => absurd rfl h) (.inl rfl)
  rcases hc with rfl | rfl <;> rfl

/-- Settles O59: reset is a start with no image loaded. -/
theorem resetMeetsInvariant : Obligations.ResetMeetsInvariant := inv_initial (.inl rfl) wf_nil [] none

theorem loadWords_wf {policy : LoaderPolicy} {m m' : Mem} {origin : Word} {ws : List Word} (hm : m.wf)
    (h : loadWords policy m origin ws = .loaded m') : m'.wf := by
  unfold loadWords at h
  split at h
  · cases h
    exact wf_writeWords hm origin ws
  · cases policy with
    | reject => cases h
    | truncate =>
      cases h
      exact wf_writeWords hm origin _

theorem loadImage_wf {policy : LoaderPolicy} {m m' : Mem} {image : Option (List Byte)} (hm : m.wf)
    (h : loadImage policy m image = .loaded m') : m'.wf := by
  unfold loadImage at h
  split at h
  · cases h
  · split at h
    · exact loadWords_wf hm h
    · cases h
    · cases h

theorem loadImages_wf {policy : LoaderPolicy} {m m' : Mem} {images : List (Option (List Byte))} (hm : m.wf)
    (h : loadImages policy m images = .loaded m') : m'.wf := by
  induction images generalizing m with
  | nil =>
    cases h
    exact hm
  | cons image rest ih =>
    obtain ⟨m1, himage, hrest⟩ := loadImages_cons_eq_loaded h
    exact ih (loadImage_wf hm himage) hrest

/-- Startup begins only where there is an image and all of them load. -/
theorem boot_eq_started {policy : LoaderPolicy} {c : BitVec 3} {images : List (Option (List Byte))}
    {console : List (Option Byte)} {abortIn : Option Nat} {s : State}
    (h : boot policy c images console abortIn = .started s) :
    ∃ m, loadImages policy [] images = .loaded m ∧ s = State.initial c m console abortIn := by
  unfold boot at h
  split at h
  · cases h
  · split at h
    · next m hm => exact ⟨m, hm, (BootOutcome.started.inj h).symm⟩
    · cases h
    · cases h

/-- Settles O60: the loads keep the canonical form of the empty memory. -/
theorem startupMeetsInvariant : Obligations.StartupMeetsInvariant := by
  intro policy c images console abortIn s hc h
  obtain ⟨m, hload, rfl⟩ := boot_eq_started h
  exact inv_initial hc (loadImages_wf wf_nil hload) console abortIn

end Sys2Proof.Machine
end

section
/-! The start and the end of a run (R111 - R115, R120): reset, startup, loads that fail or do not fit, and exit codes. -/

namespace Sys2Proof.Machine

/-! ### Startup (R111, R112, R115) -/

theorem boot_of_loaded {policy : LoaderPolicy} {images : List (Option (List Byte))} {m : Mem} (hne : images ≠ [])
    (h : loadImages policy [] images = .loaded m) (c : BitVec 3) (console : List (Option Byte))
    (abortIn : Option Nat) :
    boot policy c images console abortIn = .started (State.initial c m console abortIn) := by
  rw [boot, if_neg hne, h]

/-- A load that fails, and a start with no image (log entry 19), are no run. -/
theorem boot_of_failed {policy : LoaderPolicy} {images : List (Option (List Byte))}
    (h : loadImages policy [] images = .failed ∨ images = []) (c : BitVec 3) (console : List (Option Byte))
    (abortIn : Option Nat) : boot policy c images console abortIn = .noRun := by
  unfold boot
  split
  · rfl
  · next hne => rw [h.resolve_right hne]

/-- Every register is 0 before the first fetch. -/
theorem readReg_initial (c : BitVec 3) (m : Mem) (console : List (Option Byte)) (abortIn : Option Nat) (r : RegIdx) :
    (State.initial c m console abortIn).readReg r = 0x0000 := by
  simp [State.readReg, State.initial]

/-- Settles O9: memory is empty, and every other field stands in `State.initial`. -/
theorem resetState : Obligations.ResetState :=
  ⟨readReg_initial _ _ _ _, rfl, rfl, read_nil, rfl, rfl, rfl, rfl, rfl⟩

/-- Settles O10: startup ends in `State.initial` or in no run, and an ended block stays as it is. -/
theorem startupSequence : Obligations.StartupSequence := by
  intro policy c images console abortIn hne _
  refine ⟨read_nil, fun m hm => ?_, fun hfail => boot_of_failed (.inl hfail) c console abortIn, rfl,
    fun s t h hs => ?_⟩
  · exact ⟨_, boot_of_loaded hne hm c console abortIn, readReg_initial c m console abortIn, rfl, rfl, rfl, rfl, rfl,
      rfl, rfl, rfl⟩
  · cases (terminalStatesStay s hs).symm.trans h
    exact hs

/-- Settles O13: the two policies on an image that does not fit, of which truncation keeps words 0 to 65535 - O. -/
theorem overlongImagePolicy : Obligations.OverlongImagePolicy := by
  intro m origin ws hlong
  have hroom : ¬ ws.length ≤ roomAbove origin := Nat.not_le.mpr hlong
  refine ⟨?_, ⟨m.writeWords origin (ws.take (roomAbove origin)), ?_, fun i hi hfit => ?_, fun a ha => ?_⟩,
    fun _ => rfl, fun policy c images console abortIn h => boot_of_failed h c console abortIn, Nat.succ_ne_zero _⟩
  · rw [loadImage_imageBytes, loadWords, if_neg hroom]
  · rw [loadImage_imageBytes, loadWords, if_neg hroom]
  · have hlen : (ws.take (roomAbove origin)).length ≤ 65536 :=
      (List.length_take_le _ _).trans (Nat.sub_le _ _)
    have hi' : i < (ws.take (roomAbove origin)).length := List.length_take ▸ Nat.lt_min.mpr ⟨hfit, hi⟩
    rw [read_writeWords_getElem m origin hlen hi', List.getElem_take]
  · refine read_writeWords_of_ne m fun i hi => ?_
    have hfit : i < 65536 - origin.toNat := hi.trans_le (List.length_take_le _ _)
    bv_omega

/-! ### Exit codes (R5, R120) -/

/-- The interrupt code is the pick, moved past the load-failure code (log entry 18). -/
theorem interruptExitCode_ne : Config.interruptExitCode ≠ 0 ∧ Config.interruptExitCode ≠ Config.loadFailureExitCode := by
  unfold Config.interruptExitCode Config.loadFailureExitCode
  split <;> omega

/-- Settles O57: the fatal code is a successor, and the interrupt code misses the load-failure code. -/
theorem exitCodes : Obligations.ExitCodes :=
  ⟨rfl, rfl, fun _ _ => ⟨_, rfl, Nat.succ_ne_zero _⟩, _, rfl, interruptExitCode_ne⟩

end Sys2Proof.Machine
end

section
/-! What every instruction leaves unchanged (R22, R26, R39, R42): registers, PC and memory bytes; and that only BR reads
COND. -/

namespace Sys2Proof.Machine

/-! ### Registers and PC (R16, R22) -/

/-- TRAP's row of the table of registers: R7, and R0 for the two vectors that read a byte. -/
theorem gprWritten_of_trapVector {i : Instr} {v : BitVec 8} (h : trapVector i = some v) :
    gprWritten i = if v = 0x20 ∨ v = 0x23 then [7, 0] else [7] := by
  cases i with
  | trap | trapGetc | trapOut | trapPuts | trapIn | trapPutsp | trapHalt => cases h; rfl
  | _ => cases h

/-- A routine run after trap entry keeps every register but R7 and R0 (R93). -/
theorem regsKept_of_routineFrame {s t : State} (h : RoutineFrame (trapEntry s) t) : RegsKept [7, 0] s t := by
  intro r hr
  simp only [List.mem_cons, List.not_mem_nil, or_false, not_or] at hr
  rw [h.regs r hr.2]
  exact regsKept_trapEntry s r (by simpa using hr.1)

theorem regsKept_trapDispatch (v : BitVec 8) (w : Word) (s : State) :
    RegsKept (if v = 0x20 ∨ v = 0x23 then [7, 0] else [7]) s (trapDispatch v w (trapEntry s)) := by
  split
  · exact regsKept_of_routineFrame (trapDispatch_frame v w (trapEntry s))
  · next hv =>
    intro r hr
    rw [readReg_trapDispatch (not_or.mp hv)]
    exact regsKept_trapEntry s r hr

theorem plain_registersWritten {i : Instr} {s t : State} (hv : trapVector i = none) (hr : reserved i = false)
    (h : exec i s = .next t) : RegsKept (gprWritten i) s t ∧ (pcWriter i = false → t.pc = s.pc) := by
  cases i with
  | addReg | addImm | andReg | andImm | not | lea => cases h; exact ⟨regsKept_writeResult s _ _, fun _ => rfl⟩
  | ld | ldr => cases h; exact ⟨(loadFrom_frame _ _ s).1, fun _ => (loadFrom_frame _ _ s).2.1⟩
  | ldi dr off9 =>
    cases h
    obtain ⟨hregs, hpc, -⟩ := (frame_memRead_left_iff (pcRelative off9 s)).mp (loadFrom_frame _ dr _)
    exact ⟨hregs, fun _ => hpc⟩
  | st | str => cases h; exact ⟨fun r _ => readReg_memWrite s _ _ r, fun _ => rfl⟩
  | sti =>
    obtain rfl := Host.Outcome.next.inj h
    exact ⟨fun r _ => (readReg_memWrite _ _ _ r).trans (readReg_memRead _ s r), fun _ => memRead_pc _ s⟩
  | jmp => cases h; exact ⟨fun r _ => readReg_setPc s _ r, nofun⟩
  | jsr | jsrr =>
    cases h
    obtain ⟨-, -, -, hregs, -⟩ := linkR7_setPc_effect s _
    exact ⟨hregs, nofun⟩
  | br nzp off9 =>
    refine ⟨fun r _ => ?_, nofun⟩
    cases h
    split <;> rfl
  | rti | res => cases hr
  | trap | trapGetc | trapOut | trapPuts | trapIn | trapPutsp | trapHalt => cases hv

/-- Settles O16: each kind of instruction by its frame; COND is O15's. -/
theorem registersWrittenTable : Obligations.RegistersWrittenTable := by
  intro i s t h
  rw [← and_assoc]
  refine ⟨?_, fun hi => exec_cond_of_flagDefining_none hi h⟩
  rcases trapVector_or_reserved_or_plain i with ⟨v, hv⟩ | hr | ⟨hv, hr⟩
  · cases (exec_of_trapVector hv s).symm.trans h
    exact ⟨gprWritten_of_trapVector hv ▸ regsKept_trapDispatch v _ s,
      fun _ => (trapDispatch_frame v _ (trapEntry s)).pc⟩
  · cases (exec_of_reserved hr s).symm.trans h
    exact ⟨fun r _ => readReg_raiseFatal s _ _ r, fun _ => rfl⟩
  · exact plain_registersWritten hv hr h

/-! ### Memory (R39, R42) -/

/-- The key is no key of the two device words. -/
def OffDevice (k : Nat) : Prop := k ≠ 2 * 0xFE00 ∧ k ≠ 2 * 0xFE00 + 1 ∧ k ≠ 2 * 0xFE02 ∧ k ≠ 2 * 0xFE02 + 1

/-- A read keeps a byte that is off the devices, and any byte where it does not poll. -/
theorem readByte_memRead_of_guard {a : Word} {s : State} {k : Nat} (h : (a == Config.kbsrAddr) = true → OffDevice k) :
    (memRead a s).2.mem.readByte k = s.mem.readByte k := by
  by_cases ha : a = Config.kbsrAddr
  · obtain ⟨h0, h1, h2, h3⟩ := h (beq_iff_eq.mpr ha)
    exact readByte_memRead a s h0 h1 h2 h3
  · rw [memRead_of_ne ha]

theorem plain_readByte {i : Instr} {s t : State} {k : Nat} (hv : trapVector i = none) (hr : reserved i = false)
    (h : exec i s = .next t)
    (hstore : ∀ a, storeAddress i s = some a → k ≠ 2 * a.toNat ∧ k ≠ 2 * a.toNat + 1)
    (hpoll : polls i s = true → OffDevice k) : t.mem.readByte k = s.mem.readByte k := by
  cases i with
  | addReg | addImm | andReg | andImm | not | lea | jmp | jsr | jsrr => cases h; rfl
  | br => cases h; split <;> rfl
  | ld | ldr => cases h; exact readByte_memRead_of_guard hpoll
  | ldi dr off9 =>
    obtain rfl := Host.Outcome.next.inj h
    rw [loadFrom, writeResult_mem, readByte_memRead_of_guard fun hd => hpoll (Bool.or_eq_true_iff.mpr (.inr hd))]
    exact readByte_memRead_of_guard fun hp => hpoll (Bool.or_eq_true_iff.mpr (.inl hp))
  | st | str =>
    cases h
    obtain ⟨h0, h1⟩ := hstore _ rfl
    exact readByte_write_ne s.mem h0 h1
  | sti sr off9 =>
    cases h
    obtain ⟨h0, h1⟩ := hstore _ rfl
    exact (readByte_write_ne _ h0 h1).trans (readByte_memRead_of_guard hpoll)
  | rti | res => cases hr
  | trap | trapGetc | trapOut | trapPuts | trapIn | trapPutsp | trapHalt => cases hv

/-- Settles O17: TRAP, RTI and RES leave memory as it is; every other instruction makes the accesses that `storeAddress`
and `polls` name. -/
theorem storesChangeOneWord : Obligations.StoresChangeOneWord := by
  intro i s t k h hstore hpoll
  rcases trapVector_or_reserved_or_plain i with ⟨v, hv⟩ | hr | ⟨hv, hr⟩
  · cases (exec_of_trapVector hv s).symm.trans h
    exact congrArg (·.readByte k) (trapDispatch_frame v _ (trapEntry s)).mem
  · cases (exec_of_reserved hr s).symm.trans h
    rfl
  · exact plain_readByte hv hr h hstore hpoll

/-! ### Who reads COND (R26) -/

section
variable (s : State) (c : BitVec 3)

/-- A load forgets the old COND. -/
theorem loadFrom_with_cond (ea : Word) (dr : RegIdx) : loadFrom ea dr { s with cond := c } = loadFrom ea dr s := by
  rw [loadFrom, memRead_with_cond]
  rfl

theorem indirect_with_cond (off9 : BitVec 9) :
    indirect off9 { s with cond := c } = ((indirect off9 s).1, { (indirect off9 s).2 with cond := c }) :=
  memRead_with_cond _ s c

theorem readOrHold_with_cond (h : Hold) {finish : Byte → State → State}
    (hf : ∀ b u, finish b { u with cond := c } = { finish b u with cond := c }) :
    readOrHold h finish { s with cond := c } = { readOrHold h finish s with cond := c } := by
  rcases readOrHold_cases h finish s with ⟨b, rest, hc, e⟩ | ⟨hn, e⟩ <;> rw [e]
  · rw [readOrHold_of_byte (s := { s with cond := c }) hc]
    exact hf b { s with console := rest, hold := .free }
  · exact readOrHold_of_none (s := { s with cond := c }) hn h finish

theorem trapDispatch_with_cond (v : BitVec 8) (w : Word) :
    trapDispatch v w { s with cond := c } = { trapDispatch v w s with cond := c } := by
  unfold trapDispatch
  split_ifs
  · exact readOrHold_with_cond s c .getc fun _ _ => rfl
  · rfl
  · simp only [routinePuts_eq]; rfl
  · exact readOrHold_with_cond (s.consoleWriteAll Config.inPrompt) c .inp fun _ _ => rfl
  · simp only [routinePutsp_eq]; rfl
  · rfl
  · rfl

end

/-- A flag-defining instruction overwrites COND without reading it. -/
theorem exec_with_cond_of_some {i : Instr} {r : RegIdx} (hi : flagDefining i = some r) (s : State) (c : BitVec 3) :
    exec i { s with cond := c } = exec i s := by
  cases i with
  | addReg | addImm | andReg | andImm | not | lea => rfl
  | ld | ldr => exact congrArg Host.Outcome.next (loadFrom_with_cond s c _ _)
  | ldi => rw [exec, execLdi, indirect_with_cond, loadFrom_with_cond, exec, execLdi]
  | br | st | sti | str | jmp | jsr | jsrr | rti | res => cases hi
  | trap | trapGetc | trapOut | trapPuts | trapIn | trapPutsp | trapHalt => cases hi

/-- Every other instruction but BR carries COND along. -/
theorem exec_with_cond_of_none {i : Instr} (hi : flagDefining i = none) (hbr : ∀ nzp off9, i ≠ .br nzp off9)
    {s t : State} (h : exec i s = .next t) (c : BitVec 3) :
    exec i { s with cond := c } = .next { t with cond := c } := by
  cases i with
  | br nzp off9 => exact absurd rfl (hbr nzp off9)
  | addReg | addImm | andReg | andImm | not | ld | ldi | ldr | lea => cases hi
  | st | str | jmp | jsr | jsrr | rti | res => cases h; rfl
  | sti =>
    cases h
    rw [exec, execSti, indirect_with_cond]
    rfl
  | trap | trapGetc | trapOut | trapPuts | trapIn | trapPutsp | trapHalt =>
    cases (exec_of_trapVector rfl s).symm.trans h
    rw [exec_of_trapVector rfl]
    exact congrArg Host.Outcome.next (trapDispatch_with_cond (trapEntry s) c _ _)

/-- Settles O18: the result's COND is the instruction's own, or the one it was run with. -/
theorem onlyBranchReadsCond : Obligations.OnlyBranchReadsCond := by
  intro i c s t hbr h
  cases hi : flagDefining i with
  | some r => rw [exec_with_cond_of_some hi, h, if_neg nofun]
  | none => rw [exec_with_cond_of_none hi hbr h, if_pos rfl]

end Sys2Proof.Machine
end

section
/-! The console routines (R84 - R94): the words of TRAP, the strings PUTS and PUTSP write, and the reads of GETC and IN. -/

namespace Sys2Proof.Machine

/-! ### The words (R85) -/

/-- A word with a defined vector decodes as any other word of that vector: bits 11:8 are not looked at. -/
theorem decode_eq_decodeTrap {w w' : Word} (ho : w.extractLsb' 12 4 = 0xF) (hv : w.extractLsb' 0 8 = trapvect8 w')
    (hd : definedVector (trapvect8 w') = true) : decode w = decodeTrap w' :=
  (decode_of_trap ((opcode_eq_slice w).trans ho)).trans (decodeTrap_congr ((trapvect8_eq_slice w).trans hv) hd)

/-- The dispatch on a defined vector does not look at the word. -/
theorem trapDispatch_congr {v : BitVec 8} (hd : definedVector v = true) (w w' : Word) (s : State) :
    trapDispatch v w s = trapDispatch v w' s := by
  simp only [definedVector, Bool.or_eq_true, beq_iff_eq] at hd
  rcases hd with ((((rfl | rfl) | rfl) | rfl) | rfl) | rfl <;> rfl

/-- A TRAP word does what the generic row does with its vector (log entry 24). -/
theorem exec_decode_eq_generic {w : Word} (ho : w.extractLsb' 12 4 = 0xF) (s : State) :
    exec (decode w) s = exec (.trap (w.extractLsb' 8 4) (w.extractLsb' 0 8)) s := by
  have hop : opcode w = 0xF := (opcode_eq_slice w).trans ho
  cases hd : definedVector (w.extractLsb' 0 8) with
  | false => rw [decode_of_unknownVector ho hd]
  | true =>
    rw [exec_of_trapVector (trapVector_decode hop), exec_of_trapVector rfl, trapvect8_eq_slice,
      trapDispatch_congr hd]

/-- Settles O47: an unknown vector has the generic row, whose fatal error comes after trap entry. -/
theorem trapVectorDispatch : Obligations.TrapVectorDispatch := by
  refine ⟨fun w ho hv => ?_, fun w s ho => exec_decode_eq_generic ho s, fun high s => ⟨rfl, rfl, rfl, rfl, rfl, rfl⟩⟩
  have hd : definedVector (trapvect8 w) = false := (definedVector_trapvect8_eq_false_iff w).mpr hv
  refine ⟨decode_of_unknownVector ho (trapvect8_eq_slice w ▸ hd), fun s => ?_⟩
  exact ⟨_, exec_decode_of_unknownVector ((opcode_eq_slice w).trans ho) hd s, rfl, readReg_trapEntry_link s,
    regsKept_trapEntry s, rfl, rfl, fun _ => rfl, ⟨rfl, rfl⟩, rfl, rfl⟩

/-! ### Trap entry and a routine (R84, R93) -/

/-- What every routine does to the state before trap entry, R0, the run state, the hold and the streams apart. -/
theorem routine_effect {s t : State} (h : RoutineFrame (trapEntry s) t) :
    t.readReg 7 = s.pc ∧ RegsKept [7, 0] s t ∧ t.pc = s.pc ∧ t.cond = s.cond ∧ MemKept s t :=
  ⟨(h.regs 7 (by decide)).trans (readReg_trapEntry_link s), regsKept_of_routineFrame h, h.pc, h.cond,
    fun k => congrArg (·.readByte k) h.mem⟩

theorem readReg_trapEntry_zero (s : State) : (trapEntry s).readReg 0 = s.readReg 0 :=
  regsKept_trapEntry s 0 (by decide)

/-- Settles O46: HALT writes its message after trap entry, and at HALTED all of the output is delivered. -/
theorem trapHaltEndsRun : Obligations.TrapHaltEndsRun := by
  refine ⟨fun w ho hv => decode_eq_decodeTrap (w' := encode .trapHalt) ho hv rfl, fun s => ?_⟩
  obtain ⟨hlink, -, hpc, hcond, hmem⟩ := routine_effect (routineFrame_halt (trapEntry s))
  exact ⟨routineHalt (trapEntry s), rfl, hlink, rfl, rfl, rfl, rfl, rfl, regsKept_trapEntry s, hpc, hcond, hmem,
    fun _ hbs => hbs⟩

/-! ### Strings in memory (R89, R91) -/

theorem add_ofNat_zero (a : Word) : a + BitVec.ofNat 16 0 = a := BitVec.add_zero a

/-- The string at `a`, with `rest` more words up to 0xFFFF, has `n` words before its first zero word or the end of
memory. -/
def StringLength (m : Mem) (a : Word) (rest n : Nat) : Prop :=
  n ≤ rest + 1 ∧ (∀ j < n, m.read (a + BitVec.ofNat 16 j) ≠ 0x0000) ∧
    (n = rest + 1 ∨ m.read (a + BitVec.ofNat 16 n) = 0x0000)

section
variable {m : Mem} {a : Word}

theorem stringLength_of_zero (hz : m.read a = 0x0000) (rest : Nat) : StringLength m a rest 0 :=
  ⟨Nat.zero_le _, fun j hj => absurd hj (Nat.not_lt_zero j), .inr ((congrArg m.read (add_ofNat_zero a)).trans hz)⟩

/-- The word at 0xFFFF ends the string, zero or not (D12). -/
theorem stringLength_last (hz : m.read a ≠ 0x0000) : StringLength m a 0 1 := by
  refine ⟨le_rfl, fun j hj => ?_, .inl rfl⟩
  obtain rfl := Nat.lt_one_iff.mp hj
  rwa [add_ofNat_zero]

theorem stringLength_succ {rest n : Nat} (hz : m.read a ≠ 0x0000) (h : StringLength m (a + 1) rest n) :
    StringLength m a (rest + 1) (n + 1) := by
  obtain ⟨hle, hne, hend⟩ := h
  refine ⟨Nat.succ_le_succ hle, fun j hj => ?_, ?_⟩
  · cases j with
    | zero => rwa [add_ofNat_zero]
    | succ j => exact add_ofNat_succ a j ▸ hne j (Nat.lt_of_succ_lt_succ hj)
  · rw [add_ofNat_succ]
    exact hend.imp_left (congrArg (· + 1))

end

/-- A raw scan writes the bytes of the string's words, in order. -/
theorem stringBytes_eq_flatMap (emit : Word → List Byte) (m : Mem) (rest : Nat) (a : Word) :
    ∃ n, StringLength m a rest n ∧
      stringBytes emit m rest a = (List.range n).flatMap fun j => emit (m.read (a + BitVec.ofNat 16 j)) := by
  induction rest generalizing a with
  | zero =>
    by_cases hz : m.read a = 0x0000
    · exact ⟨0, stringLength_of_zero hz 0, if_pos hz⟩
    · refine ⟨1, stringLength_last hz, ?_⟩
      rw [stringBytes, if_neg hz, List.range_one, List.flatMap_singleton, add_ofNat_zero]
  | succ rest ih =>
    by_cases hz : m.read a = 0x0000
    · exact ⟨0, stringLength_of_zero hz _, if_pos hz⟩
    · obtain ⟨n, hn, he⟩ := ih (a + 1)
      refine ⟨n + 1, stringLength_succ hz hn, ?_⟩
      have hnext : ∀ j, a + 1 + BitVec.ofNat 16 j = a + BitVec.ofNat 16 (j + 1) := fun j => (add_ofNat_succ a j).symm
      simp only [hnext] at he
      rw [stringBytes, if_neg hz, he, List.range_succ_eq_map, List.flatMap_cons, List.flatMap_map, add_ofNat_zero]

/-- What PUTS and PUTSP do, by the bytes each writes for a word: trap entry and the string at R0. -/
theorem writeString_effect {emit : Word → List Byte} {s t : State}
    (ht : t = (trapEntry s).consoleWriteAll (stringBytes emit s.mem (65535 - (s.readReg 0).toNat) (s.readReg 0))) :
    ∃ n, t.readReg 7 = s.pc ∧ (s.readReg 0).toNat + n ≤ 65536 ∧
      (∀ j, j < n → s.mem.read (s.readReg 0 + BitVec.ofNat 16 j) ≠ 0x0000) ∧
      ((s.readReg 0).toNat + n = 65536 ∨ s.mem.read (s.readReg 0 + BitVec.ofNat 16 n) = 0x0000) ∧
      t.output = s.output ++
        (List.range n).flatMap (fun j => emit (s.mem.read (s.readReg 0 + BitVec.ofNat 16 j))) ∧
      t.console = s.console ∧ RegsKept [7] s t ∧ t.pc = s.pc ∧ t.cond = s.cond ∧ MemKept s t ∧ ControlKept s t := by
  subst ht
  obtain ⟨n, ⟨hle, hne, hend⟩, he⟩ :=
    stringBytes_eq_flatMap emit s.mem (65535 - (s.readReg 0).toNat) (s.readReg 0)
  have hr0 := (s.readReg 0).isLt
  exact ⟨n, readReg_trapEntry_link s, by omega, hne, hend.imp_left (by omega), congrArg (s.output ++ ·) he, rfl,
    regsKept_trapEntry s, rfl, rfl, fun _ => rfl, ⟨rfl, rfl, rfl⟩⟩

theorem routinePuts_trapEntry (s : State) : routinePuts (trapEntry s) = (trapEntry s).consoleWriteAll
    (stringBytes putsBytes s.mem (65535 - (s.readReg 0).toNat) (s.readReg 0)) := by
  rw [routinePuts_eq, readReg_trapEntry_zero, trapEntry_mem]

theorem routinePutsp_trapEntry (s : State) : routinePutsp (trapEntry s) = (trapEntry s).consoleWriteAll
    (stringBytes putspBytes s.mem (65535 - (s.readReg 0).toNat) (s.readReg 0)) := by
  rw [routinePutsp_eq, readReg_trapEntry_zero, trapEntry_mem]

theorem putsBytes_eq (w : Word) : putsBytes w = [w.extractLsb' 0 8] := by
  rw [putsBytes, field_eq_slice]

theorem putspBytes_eq (w : Word) :
    putspBytes w = w.extractLsb' 0 8 :: if w.extractLsb' 8 8 = 0x00 then [] else [w.extractLsb' 8 8] := by
  rw [putspBytes, field_eq_slice, field_eq_slice]
  split <;> rfl

/-- Settles O43: one byte for each word of the string. -/
theorem trapPutsWritesString : Obligations.TrapPutsWritesString := by
  refine ⟨fun w ho hv => decode_eq_decodeTrap (w' := encode .trapPuts) ho hv rfl, fun s => ?_⟩
  obtain ⟨n, h⟩ := writeString_effect (routinePuts_trapEntry s)
  simp only [putsBytes_eq, ← List.map_eq_flatMap] at h
  exact ⟨_, n, rfl, h⟩

/-- Settles O45: one or two bytes for each word of the string. -/
theorem trapPutspWritesString : Obligations.TrapPutspWritesString := by
  refine ⟨fun w ho hv => decode_eq_decodeTrap (w' := encode .trapPutsp) ho hv rfl, fun s => ?_⟩
  obtain ⟨n, h⟩ := writeString_effect (routinePutsp_trapEntry s)
  simp only [putspBytes_eq] at h
  exact ⟨_, n, rfl, h⟩

/-! ### GETC and IN (R87, R90, R94) -/

/-- Settles O41: trap entry keeps the console, so the byte is the one next before it. -/
theorem trapGetcReadsByte : Obligations.TrapGetcReadsByte := by
  refine ⟨fun w ho hv => decode_eq_decodeTrap (w' := encode .trapGetc) ho hv rfl, fun s b rest hc => ?_⟩
  have he : routineGetc (trapEntry s) = finishGetc b { trapEntry s with console := rest, hold := .free } :=
    readOrHold_of_byte (s := trapEntry s) hc .getc finishGetc
  obtain ⟨hlink, hregs, hpc, hcond, hmem⟩ := routine_effect (routineFrame_getc (trapEntry s))
  rw [he] at hlink hregs hpc hcond hmem
  exact ⟨_, congrArg Host.Outcome.next he, hlink, readReg_writeReg_same _ 0 _, rfl, rfl, rfl, rfl, rfl, hregs, hpc,
    hcond, hmem⟩

/-- Settles O44: the prompt is written before the read, and the echo after it. -/
theorem trapInEchoesByte : Obligations.TrapInEchoesByte := by
  refine ⟨fun w ho hv => decode_eq_decodeTrap (w' := encode .trapIn) ho hv rfl, fun s b rest hc => ?_⟩
  have he : routineIn (trapEntry s) =
      finishIn b { (trapEntry s).consoleWriteAll Config.inPrompt with console := rest, hold := .free } :=
    readOrHold_of_byte (s := (trapEntry s).consoleWriteAll Config.inPrompt) hc .inp finishIn
  obtain ⟨hlink, hregs, hpc, hcond, hmem⟩ := routine_effect (routineFrame_in (trapEntry s))
  rw [he] at hlink hregs hpc hcond hmem
  exact ⟨_, congrArg Host.Outcome.next he, hlink, readReg_writeReg_same _ 0 _, rfl, rfl, rfl, rfl, rfl, hregs, hpc,
    hcond, hmem⟩

/-- Settles O48: a hold comes after trap entry, and after IN's prompt. -/
theorem consoleReadHolds : Obligations.ConsoleReadHolds := by
  intro s hn
  have hgetc : routineGetc (trapEntry s) = { trapEntry s with console := s.console.tail, hold := .getc } :=
    readOrHold_of_none (s := trapEntry s) hn .getc finishGetc
  have hin : routineIn (trapEntry s) =
      { (trapEntry s).consoleWriteAll Config.inPrompt with console := s.console.tail, hold := .inp } :=
    readOrHold_of_none (s := (trapEntry s).consoleWriteAll Config.inPrompt) hn .inp finishIn
  exact ⟨⟨_, congrArg Host.Outcome.next hgetc, rfl, rfl, readReg_trapEntry_link s, rfl, rfl, rfl,
      regsKept_trapEntry s, rfl, rfl, fun _ => rfl⟩,
    ⟨_, congrArg Host.Outcome.next hin, rfl, rfl, readReg_trapEntry_link s, rfl, rfl, rfl,
      regsKept_trapEntry s, rfl, rfl, fun _ => rfl⟩⟩

/-- The try of a held block, by the routine it is held in. -/
theorem resumeHeld_cases {s : State} (hh : s.hold ≠ .free) :
    (s.hold = .getc ∧ resumeHeld s = readOrHold .getc finishGetc s) ∨
    (s.hold = .inp ∧ resumeHeld s = readOrHold .inp finishIn s) := by
  unfold resumeHeld
  cases h : s.hold with
  | free => exact absurd h hh
  | getc => exact .inl ⟨rfl, rfl⟩
  | inp => exact .inr ⟨rfl, rfl⟩

/-- One try without a byte changes the host's answers only (R94). -/
theorem resumeHeld_of_none {s : State} (hh : s.hold ≠ .free) (hn : NoByteNext s) :
    resumeHeld s = { s with console := s.console.tail } := by
  rcases resumeHeld_cases hh with ⟨h, e⟩ | ⟨h, e⟩ <;> rw [e, readOrHold_of_none hn, ← h]

/-- One try with a byte completes GETC or IN: R0, and IN's echo (R87, R90, R94). -/
theorem resumeHeld_of_byte {s : State} {b : Byte} {rest : List (Option Byte)} (hh : s.hold ≠ .free)
    (hc : s.console = some b :: rest) :
    (resumeHeld s).hold = .free ∧ (resumeHeld s).readReg 0 = b.setWidth 16 ∧ (resumeHeld s).console = rest ∧
      (s.hold = .getc → (resumeHeld s).output = s.output) ∧
      (s.hold = .inp → (resumeHeld s).output = s.output ++ [b]) := by
  rcases resumeHeld_cases hh with ⟨h, e⟩ | ⟨h, e⟩ <;> rw [e, readOrHold_of_byte hc, h]
  · exact ⟨rfl, readReg_writeReg_same _ 0 _, rfl, fun _ => rfl, nofun⟩
  · exact ⟨rfl, readReg_writeReg_same _ 0 _, rfl, nofun, fun _ => rfl⟩

/-- Settles O49: the step is one more try of the read, one boundary passed. -/
theorem heldStepWaitsOrCompletes : Obligations.HeldStepWaitsOrCompletes := by
  intro s hr ha hh
  rw [step_of_held hr ha hh]
  refine ⟨fun hn => congrArg Host.Outcome.next (resumeHeld_of_none (s := passBoundary s) hh hn), fun b rest hc => ?_⟩
  obtain ⟨hfree, hreg, hconsole, hgetc, hinp⟩ := resumeHeld_of_byte (s := passBoundary s) hh hc
  obtain ⟨⟨hpc, hcond, hmem, habort, hregs⟩, hrun, -⟩ := resumeHeld_frame (passBoundary s)
  exact ⟨_, rfl, hfree, hrun.trans hr, hreg, hconsole, hgetc, hinp, fun r hr => hregs r (List.ne_of_not_mem_cons hr),
    hpc, hcond, fun k => congrArg (·.readByte k) hmem, habort⟩

end Sys2Proof.Machine
end

section
/-! The words of memory: canonical memories with the same words are equal (R28, log entry 7), and stores are seen by the
reads that follow (R37, R46). -/

namespace Sys2Proof.Machine

/-! ### The canonical form -/

/-- A canonical memory lists exactly the bytes that are not 0, at their keys. -/
theorem mem_iff_readByte {m : Mem} (h : m.wf) (k : Nat) (v : Byte) : (k, v) ∈ m ↔ v ≠ 0 ∧ m.readByte k = v := by
  induction m with
  | nil => exact ⟨nofun, fun ⟨hv, hread⟩ => absurd hread.symm hv⟩
  | cons c rest ih =>
    obtain ⟨k', v'⟩ := c
    obtain ⟨hsorted, hcells⟩ := h
    obtain ⟨hhead, htail⟩ := List.pairwise_cons.mp hsorted
    obtain ⟨hv', hrest⟩ := List.forall_mem_cons.mp hcells
    have ih := ih ⟨htail, hrest⟩
    by_cases hk : k = k'
    · subst hk
      have hnot : (k, v) ∉ rest := fun hmem => absurd (hhead _ hmem) (lt_irrefl k)
      have hv : v' ≠ 0 := hv'.2
      rw [Mem.readByte, if_pos rfl, List.mem_cons, Prod.mk.injEq]
      constructor
      · rintro (⟨-, rfl⟩ | hmem)
        · exact ⟨hv, rfl⟩
        · exact absurd hmem hnot
      · rintro ⟨-, rfl⟩
        exact .inl ⟨rfl, rfl⟩
    · rw [Mem.readByte, if_neg hk, ← ih, List.mem_cons, Prod.mk.injEq]
      simp [hk]

/-- Memories with the same words have the same bytes at every key of a word. -/
theorem readByte_eq_of_read_eq {m m' : Mem} (h : ∀ a, m.read a = m'.read a) {k : Nat} (hk : k < memKeys) :
    m.readByte k = m'.readByte k := by
  have ha := h (BitVec.ofNat 16 (k / 2))
  have hkey : firstKey (BitVec.ofNat 16 (k / 2)) = k - k % 2 := by
    unfold memKeys at hk
    rw [firstKey, BitVec.toNat_ofNat]
    omega
  have hfirst := congrArg firstByte ha
  have hsecond := congrArg secondByte ha
  simp only [Mem.read, firstByte_wordOfBytes, secondByte_wordOfBytes, hkey] at hfirst hsecond
  rcases Nat.mod_two_eq_zero_or_one k with hmod | hmod
  · rwa [hmod, Nat.sub_zero] at hfirst
  · rwa [hmod, Nat.sub_add_cancel (by omega)] at hsecond

/-- A canonical memory lists every cell of another one with the same words. -/
theorem mem_of_read_eq {m m' : Mem} (hm : m.wf) (hm' : m'.wf) (h : ∀ a, m.read a = m'.read a) {c : Host.Cell}
    (hc : c ∈ m) : c ∈ m' := by
  obtain ⟨hne, hbyte⟩ := (mem_iff_readByte hm c.1 c.2).mp hc
  exact (mem_iff_readByte hm' c.1 c.2).mpr ⟨hne, (readByte_eq_of_read_eq h (hm.2 c hc).1).symm.trans hbyte⟩

/-- Settles O24: both lists are sorted by key and list the same cells. -/
theorem canonicalMemoriesAreEqual : Obligations.CanonicalMemoriesAreEqual := by
  intro m m' hm hm' h
  exact hm.1.eq_of_mem_iff hm'.1 fun c =>
    ⟨mem_of_read_eq hm hm' h, mem_of_read_eq hm' hm fun a => (h a).symm⟩

/-! ### Stores and the reads after them (R37, R46) -/

theorem fetch_storeTo {ea : Word} {sr : RegIdx} {s : State} (hpc : s.pc = ea) (hne : s.pc ≠ 0xFE00) :
    (fetch (storeTo ea sr s)).1 = s.readReg sr := by
  have hne' : (storeTo ea sr s).pc ≠ Config.kbsrAddr := hne
  rw [fetch_of_ne hne']
  exact (congrArg (storeTo ea sr s).mem.read hpc).trans (read_write_same s.mem ea _)

/-- Settles O23: the store is at the address read next, where `read_write_same` gives the word; at KBSR_ADDR the read polls
first. -/
theorem storesAreSeenByReads : Obligations.StoresAreSeenByReads := by
  refine ⟨fun sr baser off9 off6 s t hne => ⟨fun h hpc => ?_, fun h hpc => ?_, fun h hpc => ?_⟩,
    fun v s => ⟨?_, ?_, fun hn => ?_, fun b rest hc => ?_⟩⟩
  · obtain rfl := Host.Outcome.next.inj h
    exact fetch_storeTo (s := s) (ea := pcRelative off9 s) hpc hne
  · obtain rfl := Host.Outcome.next.inj h
    exact (fetch_storeTo (s := (indirect off9 s).2) (ea := (indirect off9 s).1) hpc hne).trans (readReg_memRead _ s sr)
  · obtain rfl := Host.Outcome.next.inj h
    exact fetch_storeTo (s := s) (ea := baseOffset baser off6 s) hpc hne
  · exact (congrArg Prod.fst (memRead_of_ne (by decide) _)).trans (read_write_same s.mem Config.kbdrAddr v)
  · exact read_write_same s.mem Config.kbsrAddr v
  · exact congrArg Prod.fst (memRead_kbsr_none (s := memWrite Config.kbsrAddr v s) hn)
  · exact congrArg Prod.fst (memRead_kbsr_byte (s := memWrite Config.kbsrAddr v s) hc)

end Sys2Proof.Machine
end
